-- ==== Sys2Proof/Word.lean ====
section
/-! DEFINITION. The widths of the machine (00_scope.md R5): a 16-bit word, an 8-bit byte. -/

namespace Sys2Proof

/-- A register, an address, an opcode word or an immediate word: 16 bits, bit 0 least significant (R5, R7). -/
abbrev Word := BitVec 16

/-- What one address names: 8 bits (20_memory.md R50). -/
abbrev Byte := BitVec 8

end Sys2Proof
end

