-- ==== Sys2Proof/Config.lean ====
section
/-! DEFINITION. What an implementation or a platform fixes: the parameters of 00_scope.md section 4, as plain
data, and the one source of free values. A `Config` stands in `State.cfg`; no step changes it (log 1). -/

namespace Sys2Proof

/-- Parameter `VARIANT` (00_scope.md R2). -/
inductive Variant where
  | markII
  | markIIL
deriving DecidableEq, Repr

/-- Parameter `DIV_ROUNDING` (43_arithmetic.md R184, R185). -/
inductive DivRounding where
  | truncate
  | floor
deriving DecidableEq, Repr

/-- Parameter `MUL_CARRY` (43_arithmetic.md R183): which 32-bit product the carry of MUL tests. -/
inductive MulCarry where
  | unsigned
  | signed
deriving DecidableEq, Repr

/-- The kind of a memory access: `MemFetch`, `MemRead`, `MemWrite` (20_memory.md R56 to R58). -/
inductive AccessKind where
  | fetch
  | read
  | write
deriving DecidableEq, Repr

/-- One piece of the predicate `bus_error` on (address, width, kind): every access of this kind and of `width` bytes
at an address from `first` to `last` is answered with BUS (60_exceptions.md R254; log 12). -/
structure BusWindow where
  first : Nat
  last : Nat
  width : Nat
  kind : AccessKind
deriving DecidableEq, Repr

/-- Addresses from `first` to `last`, both included: a piece of `device_region` (20_memory.md R62; log 13),
in the data and in the code space (DESIGN CHOICE, log 40). -/
structure AddressRange where
  first : Nat
  last : Nat
deriving DecidableEq, Repr

/-- The parameters of 00_scope.md section 4 that stay fixed during a run. -/
structure Config where
  /-- `VARIANT`. -/
  variant : Variant
  /-- `DIV_ROUNDING`. -/
  divRounding : DivRounding
  /-- The quotient of `DIV_OVERFLOW` (R186). -/
  divOverflowQuotient : Word
  /-- The remainder of `DIV_OVERFLOW` (R186). -/
  divOverflowRemainder : Word
  /-- `MUL_CARRY`. -/
  mulCarry : MulCarry
  /-- `UNIFIED_MEMORY` (20_memory.md R52). -/
  unifiedMemory : Bool
  /-- `bus_error`: empty means never. -/
  busErrors : List BusWindow
  /-- `device_region`. -/
  devices : List AddressRange
deriving DecidableEq, Repr

/-- The defaults of 00_scope.md section 4, for one variant. -/
def Config.default (v : Variant) : Config :=
  { variant := v
    divRounding := .truncate
    divOverflowQuotient := 0x8000#16
    divOverflowRemainder := 0x0000#16
    mulCarry := .unsigned
    unifiedMemory := true
    busErrors := []
    devices := [] }

/-- The n-th undefined value of a run: `draw16()` of 00_scope.md R12, "any 16-bit value, chosen afresh at each use,
under no law". It has no body: nothing can be proved of it. Who draws: HALT (log 6), division by zero (log 7),
a read of an undefined SP or BP (log 3), a device read (log 13). -/
opaque Config.freeWord : Nat → Word

end Sys2Proof
end

