-- ==== Sys2Proof/Syntax.lean ====
section
/-! DEFINITION. The instructions: one constructor for each row of spec/opcode_table.json, over the five configuration
fields that every instruction has (30_encoding.md R80, R88). Immediates are words of the instruction stream, read by
the input stage through IP (40_instruction_cycle.md R116), so an `Instr` is an opcode word; `Assembled` adds the
immediate words behind it (log 31). -/

namespace Sys2Proof

/-- The execution conditions, field `cond` (30_encoding.md R83); names of R97. -/
inductive Cond where
  | always
  | zero
  | nonzero
  | greater
  | less
  | gequal
  | lequal
  | overflow
deriving DecidableEq, Repr

/-- The input behaviours, fields `in0` and `in1` (30_encoding.md R84). -/
inductive Mode where
  | zero
  | immediate
  | peek
  | pop
deriving DecidableEq, Repr

/-- The configuration part of an instruction (30_encoding.md R80 to R86). -/
structure Fields where
  cond : Cond
  in0 : Mode
  in1 : Mode
  /-- Field `flg`: set Z and N from the output. -/
  flg : Bool
  /-- Field `out`: push the output. -/
  out : Bool
deriving DecidableEq, Repr

/-- One constructor for each row of spec/opcode_table.json (30_encoding.md R87, R92). The rows that stand for several
command numbers hold the number; the row RESERVED_BIT15 holds the whole word. -/
inductive Instr where
  | copy (f : Fields)
  | get (f : Fields)
  | set (f : Fields)
  | store8 (f : Fields)
  | store16 (f : Fields)
  | load8 (f : Fields)
  | load16 (f : Fields)
  | cpuid (f : Fields)
  | halt (f : Fields)
  | frget (f : Fields)
  | frset (f : Fields)
  | bpget (f : Fields)
  | bpset (f : Fields)
  | spget (f : Fields)
  | spset (f : Fields)
  | add (f : Fields)
  | sub (f : Fields)
  | mul (f : Fields)
  | div (f : Fields)
  | mod (f : Fields)
  | and (f : Fields)
  | or (f : Fields)
  | xor (f : Fields)
  | not (f : Fields)
  | signext (f : Fields)
  | rol (f : Fields)
  | ror (f : Fields)
  | bswap (f : Fields)
  | asr (f : Fields)
  | lsl (f : Fields)
  | lsr (f : Fields)
  | setip (f : Fields)
  | addip (f : Fields)
  | intr (f : Fields)
  | reservedCmd1 (f : Fields)
  | reservedCmd35 (f : Fields)
  | reservedCmd36to39 (cmd : BitVec 6) (f : Fields)
  | reservedCmd40to47 (cmd : BitVec 6) (f : Fields)
  | reservedCmd48to63 (cmd : BitVec 6) (f : Fields)
  | reservedBit15 (w : Word)
deriving DecidableEq, Repr

/-- The configuration fields of an instruction; a word with bit 15 set has none (30_encoding.md R82). -/
def Instr.fields? : Instr → Option Fields
  | .copy f | .get f | .set f | .store8 f | .store16 f | .load8 f | .load16 f | .cpuid f | .halt f | .frget f
  | .frset f | .bpget f | .bpset f | .spget f | .spset f | .add f | .sub f | .mul f | .div f | .mod f | .and f
  | .or f | .xor f | .not f | .signext f | .rol f | .ror f | .bswap f | .asr f | .lsl f | .lsr f | .setip f
  | .addip f | .intr f | .reservedCmd1 f | .reservedCmd35 f | .reservedCmd36to39 _ f | .reservedCmd40to47 _ f
  | .reservedCmd48to63 _ f => some f
  | .reservedBit15 _ => none

/-- How many immediate words an input of this mode takes (30_encoding.md R89). -/
def Mode.immediates : Mode → Nat
  | .immediate => 1
  | .zero | .peek | .pop => 0

/-- How many immediate words stand behind the opcode word (30_encoding.md R89). -/
def Fields.immediates (f : Fields) : Nat := f.in0.immediates + f.in1.immediates

/-- How many immediate words stand behind the opcode word; none is defined behind a word with bit 15 set. -/
def Instr.immediates (i : Instr) : Nat :=
  match i.fields? with
  | some f => f.immediates
  | none => 0

/-- The length in bytes (30_encoding.md R89). -/
def Instr.length (i : Instr) : Nat := 2 + 2 * i.immediates

/-- An instruction with its immediate words in memory order: input0's first (30_encoding.md R90). -/
structure Assembled where
  instr : Instr
  immediates : List Word
deriving DecidableEq, Repr

end Sys2Proof
end

