-- ==== Sys2Proof/WellFormed.lean ====
section
/-! DEFINITION. Which terms of `Instr` and `Assembled` stand for words of the table (30_encoding.md R89, R92). -/

namespace Sys2Proof

/-- The command number or word a reserved row holds lies in that row (30_encoding.md R92); every other term is
well formed, since all combinations of the configuration fields are legal (R88). -/
def Instr.WellFormed : Instr → Bool
  | .reservedCmd36to39 c _ => decide (36 ≤ c.toNat ∧ c.toNat ≤ 39)
  | .reservedCmd40to47 c _ => decide (40 ≤ c.toNat ∧ c.toNat ≤ 47)
  | .reservedCmd48to63 c _ => decide (48 ≤ c.toNat)
  | .reservedBit15 w => w.getLsbD 15
  | .copy _ | .get _ | .set _ | .store8 _ | .store16 _ | .load8 _ | .load16 _ | .cpuid _ | .halt _ | .frget _
  | .frset _ | .bpget _ | .bpset _ | .spget _ | .spset _ | .add _ | .sub _ | .mul _ | .div _ | .mod _ | .and _
  | .or _ | .xor _ | .not _ | .signext _ | .rol _ | .ror _ | .bswap _ | .asr _ | .lsl _ | .lsr _ | .setip _
  | .addip _ | .intr _ | .reservedCmd1 _ | .reservedCmd35 _ => true

/-- The instruction is well formed and carries one immediate word for each input in Immediate mode (R89). -/
def Assembled.WellFormed (a : Assembled) : Bool :=
  a.instr.WellFormed && a.immediates.length == a.instr.immediates

end Sys2Proof
end

