-- ==== Sys2Proof/Decode.lean ====
section
/-! DEFINITION. From bits to instructions and back, by the encoding tables of 30_encoding.md (R80 to R94). The decoder
of one opcode word is total: every word is a row of the table (R92). The decoder of a byte sequence refuses, by name,
only a sequence that ends too early. -/

namespace Sys2Proof

/-- Field `cond`, the eight values of 30_encoding.md R83. -/
def Cond.ofBits (b : BitVec 3) : Cond :=
  match b.toNat with
  | 0 => .always
  | 1 => .zero
  | 2 => .nonzero
  | 3 => .greater
  | 4 => .less
  | 5 => .gequal
  | 6 => .lequal
  | _ => .overflow

/-- Fields `in0` and `in1`, the four values of 30_encoding.md R84. -/
def Mode.ofBits (b : BitVec 2) : Mode :=
  match b.toNat with
  | 0 => .zero
  | 1 => .immediate
  | 2 => .peek
  | _ => .pop

/-- The configuration part, bits [8:0] of the opcode word (30_encoding.md R88). -/
def Fields.ofBits (b : BitVec 9) : Fields :=
  { cond := Cond.ofBits (b.extractLsb' 0 3)
    in0 := Mode.ofBits (b.extractLsb' 3 2)
    in1 := Mode.ofBits (b.extractLsb' 5 2)
    flg := b.getLsbD 7
    out := b.getLsbD 8 }

/-- The command map of 30_encoding.md R87; the numbers it prints as reserved go to their rows (R91, R92). -/
def decodeCommand (c : BitVec 6) (f : Fields) : Instr :=
  match c.toNat with
  | 0 => .copy f
  | 1 => .reservedCmd1 f
  | 2 => .get f
  | 3 => .set f
  | 4 => .store8 f
  | 5 => .store16 f
  | 6 => .load8 f
  | 7 => .load16 f
  | 8 => .cpuid f
  | 9 => .halt f
  | 10 => .frget f
  | 11 => .frset f
  | 12 => .bpget f
  | 13 => .bpset f
  | 14 => .spget f
  | 15 => .spset f
  | 16 => .add f
  | 17 => .sub f
  | 18 => .mul f
  | 19 => .div f
  | 20 => .mod f
  | 21 => .and f
  | 22 => .or f
  | 23 => .xor f
  | 24 => .not f
  | 25 => .signext f
  | 26 => .rol f
  | 27 => .ror f
  | 28 => .bswap f
  | 29 => .asr f
  | 30 => .lsl f
  | 31 => .lsr f
  | 32 => .setip f
  | 33 => .addip f
  | 34 => .intr f
  | 35 => .reservedCmd35 f
  | n =>
    if n ≤ 39 then .reservedCmd36to39 c f
    else if n ≤ 47 then .reservedCmd40to47 c f
    else .reservedCmd48to63 c f

/-- The total decoder of one opcode word (30_encoding.md R94). -/
def decodeWord (w : Word) : Instr :=
  if w.getLsbD 15 then .reservedBit15 w
  else decodeCommand (w.extractLsb' 9 6) (Fields.ofBits (w.extractLsb' 0 9))

/-- Why a byte sequence is not an instruction. -/
inductive DecodeError where
  /-- Fewer than two bytes: no opcode word. -/
  | truncatedOpcode
  /-- An immediate word that the opcode word announces is missing. -/
  | truncatedImmediate
deriving DecidableEq, Repr

/-- The first word of a byte sequence, little endian (20_memory.md R53). -/
def takeWord : List Byte → Option (Word × List Byte)
  | lo :: hi :: rest => some (hi ++ lo, rest)
  | _ => none

/-- The first `n` words of a byte sequence. -/
def takeWords : Nat → List Byte → Option (List Word × List Byte)
  | 0, bs => some ([], bs)
  | n + 1, bs =>
    match takeWord bs with
    | none => none
    | some (w, rest) =>
      match takeWords n rest with
      | none => none
      | some (ws, rest') => some (w :: ws, rest')

/-- An instruction and its immediates at the head of a byte sequence (30_encoding.md R90, R94), and the bytes left. -/
def decode (bs : List Byte) : Except DecodeError (Assembled × List Byte) :=
  match takeWord bs with
  | none => .error .truncatedOpcode
  | some (w, rest) =>
    match takeWords (decodeWord w).immediates rest with
    | none => .error .truncatedImmediate
    | some (ws, rest') => .ok ({ instr := decodeWord w, immediates := ws }, rest')

/-- An instruction laid out as the table numbers its bits: bit 0 is the least significant bit of the first word, every
bit from `nbits` up to the longest instruction (three words) is 0; the bytes in the order memory holds them. -/
def tableBytes (nbits w : Nat) : List Byte :=
  (List.range 6).map fun k => BitVec.ofNat 8 (w % 2 ^ nbits / 2 ^ (8 * k))

/-- The instruction the decoder reads from a row's bits. -/
def decodeTableWord (nbits w : Nat) : Option Instr :=
  match decode (tableBytes nbits w) with
  | .ok (a, _) => some a.instr
  | .error _ => none

/-- Field `cond` of an encoding (30_encoding.md R83). -/
def Cond.toBits : Cond → BitVec 3
  | .always => 0b000#3
  | .zero => 0b001#3
  | .nonzero => 0b010#3
  | .greater => 0b011#3
  | .less => 0b100#3
  | .gequal => 0b101#3
  | .lequal => 0b110#3
  | .overflow => 0b111#3

/-- Fields `in0` and `in1` of an encoding (30_encoding.md R84). -/
def Mode.toBits : Mode → BitVec 2
  | .zero => 0b00#2
  | .immediate => 0b01#2
  | .peek => 0b10#2
  | .pop => 0b11#2

/-- Bits [8:0] of the opcode word, from `out` down to `cond` (the figure of 30_encoding.md R80). -/
def Fields.toBits (f : Fields) : BitVec 9 :=
  BitVec.ofBool f.out ++ BitVec.ofBool f.flg ++ f.in1.toBits ++ f.in0.toBits ++ f.cond.toBits

/-- The opcode word of command number `c`: bit 15 is 0 (the figure of 30_encoding.md R80). -/
def opcodeWord (c : BitVec 6) (f : Fields) : Word :=
  0#1 ++ c ++ f.toBits

/-- The opcode word of an instruction (30_encoding.md R87, R88). -/
def encodeWord : Instr → Word
  | .copy f => opcodeWord 0b000000#6 f
  | .reservedCmd1 f => opcodeWord 0b000001#6 f
  | .get f => opcodeWord 0b000010#6 f
  | .set f => opcodeWord 0b000011#6 f
  | .store8 f => opcodeWord 0b000100#6 f
  | .store16 f => opcodeWord 0b000101#6 f
  | .load8 f => opcodeWord 0b000110#6 f
  | .load16 f => opcodeWord 0b000111#6 f
  | .cpuid f => opcodeWord 0b001000#6 f
  | .halt f => opcodeWord 0b001001#6 f
  | .frget f => opcodeWord 0b001010#6 f
  | .frset f => opcodeWord 0b001011#6 f
  | .bpget f => opcodeWord 0b001100#6 f
  | .bpset f => opcodeWord 0b001101#6 f
  | .spget f => opcodeWord 0b001110#6 f
  | .spset f => opcodeWord 0b001111#6 f
  | .add f => opcodeWord 0b010000#6 f
  | .sub f => opcodeWord 0b010001#6 f
  | .mul f => opcodeWord 0b010010#6 f
  | .div f => opcodeWord 0b010011#6 f
  | .mod f => opcodeWord 0b010100#6 f
  | .and f => opcodeWord 0b010101#6 f
  | .or f => opcodeWord 0b010110#6 f
  | .xor f => opcodeWord 0b010111#6 f
  | .not f => opcodeWord 0b011000#6 f
  | .signext f => opcodeWord 0b011001#6 f
  | .rol f => opcodeWord 0b011010#6 f
  | .ror f => opcodeWord 0b011011#6 f
  | .bswap f => opcodeWord 0b011100#6 f
  | .asr f => opcodeWord 0b011101#6 f
  | .lsl f => opcodeWord 0b011110#6 f
  | .lsr f => opcodeWord 0b011111#6 f
  | .setip f => opcodeWord 0b100000#6 f
  | .addip f => opcodeWord 0b100001#6 f
  | .intr f => opcodeWord 0b100010#6 f
  | .reservedCmd35 f => opcodeWord 0b100011#6 f
  | .reservedCmd36to39 c f => opcodeWord c f
  | .reservedCmd40to47 c f => opcodeWord c f
  | .reservedCmd48to63 c f => opcodeWord c f
  | .reservedBit15 w => w

/-- The words of an instruction: the opcode word, then the immediates in memory order (30_encoding.md R90). -/
def encode (a : Assembled) : List Word :=
  encodeWord a.instr :: a.immediates

/-- The two bytes of a word as memory holds them, the less significant first (20_memory.md R53). -/
def wordBytes (w : Word) : List Byte :=
  [w.extractLsb' 0 8, w.extractLsb' 8 8]

/-- The bytes of an instruction as memory holds them. -/
def encodeBytes (a : Assembled) : List Byte :=
  (encode a).flatMap wordBytes

end Sys2Proof
end

