-- ==== Sys2Proof/Machine/State.lean ====
section
/-! DEFINITION. The state of one SPU Mark II or Mark II-L (10_state.md R20), as plain data: the five registers and
which of them hold no defined value, the `halted` bit, the memory, the parameters of 00_scope.md section 4, the
environment's coming events, and the model's own count of drawn values. Also the reasons a step can stop, and the states
at power-on. -/

namespace Sys2Proof.Machine

/-- Memory as (address, byte) pairs in canonical form: addresses strictly rising and below 2^16, no byte equal to what
an unlisted address reads as (`Memory.wf` in Machine/Ops.lean). -/
abbrev Memory := List Host.Cell

/-- What the environment signals at the start of one step: a subset of {RST, NMI, IRQ} (60_exceptions.md R246). -/
structure Events where
  rst : Bool
  nmi : Bool
  irq : Bool
deriving DecidableEq, Repr

/-- The registers that hold addresses (10_state.md R22 to R25). -/
inductive AddressRegister where
  | sp
  | bp
  | ip
deriving DecidableEq, Repr

/-- Why a step has no successor. Every one is behaviour the document calls undefined or leaves without an effect, which
the spec turns into a fault (00_scope.md R9, 92_eei_decisions.md D3). Each is safe: the model stops where the hardware
may do anything. -/
inductive Fault where
  /-- SP, BP or IP used as an address while its content is undefined (10_state.md R39, 60_exceptions.md R268). Raised by
  `addressIn`. Safe. -/
  | undefinedAddress (r : AddressRegister)
  /-- A 16-bit access at the odd address `a` (20_memory.md R55). Raised by `memRead16`, `memWrite16`, `memFetch`. Safe. -/
  | misaligned (a : Word)
  /-- An opcode word with bit 15 = 1 (30_encoding.md R82). Raised by RESERVED_BIT15. Safe. -/
  | reservedBit15
  /-- An executed command 1 or 35 to 63 (30_encoding.md R91). Raised by the RESERVED_CMD rows. Safe. -/
  | reservedCommand
  /-- A 1 would be left in a reserved bit of FR (10_state.md R41). Raised by FRSET, SETIP, ADDIP. Safe. -/
  | reservedFlagBit
  /-- A 1 would be left in a reserved bit of IR (10_state.md R41, 45_control.md R226). Raised by INTR. Safe. -/
  | reservedInterruptBit
  /-- CPUID with a non-zero input (42_system_registers.md R161). Raised by CPUID. Safe. -/
  | cpuidInput
  /-- INTR on a Mark II-L, which has no IR (45_control.md R226). Raised by INTR. Safe. -/
  | intrOnMarkIIL
  /-- BUS signalled on an access of the interrupt phase (60_exceptions.md R268). Raised by `interruptPhase`. Safe. -/
  | busErrorInInterruptPhase
deriving DecidableEq, Repr

/-- Why a step declines an instruction. -/
inductive Refusal where
  /-- An instruction of the table that has no meaning yet. Raised by no arm of `exec`: all are modelled. Safe. -/
  | notModelled (mnemonic : String)
deriving DecidableEq, Repr

/-- The whole state. -/
structure State where
  /-- The parameters; no step changes them (log 1). -/
  cfg : Config
  /-- Stack pointer (10_state.md R22, R23). -/
  sp : Word
  /-- Base pointer (R24). -/
  bp : Word
  /-- Instruction pointer (R25, R26). -/
  ip : Word
  /-- Flag register: Z 0, N 1, C 2, CE 3, I[3:0] 7 to 4 (R28). -/
  fr : Word
  /-- Interrupt register (R35); on a Mark II-L it does not exist and stays 0. -/
  ir : Word
  /-- The spec's own bit for HALT (R37). -/
  halted : Bool
  /-- The memory (20_memory.md R50); every access reaches it while `cfg.unifiedMemory`. -/
  mem : Memory
  /-- The code memory that `MemFetch` reads when `cfg.unifiedMemory` is false (20_memory.md R52),
  outside `device_region` (log 40). -/
  code : Memory
  /-- The content of SP is undefined: nothing has written SP since power-on or since the last reset (10_state.md R38,
  R39). No instruction then sees `sp`: a read of its value draws (log 3), a use of it as an address is a fault. -/
  spUndefined : Bool
  /-- The same of BP. -/
  bpUndefined : Bool
  /-- The same of IP: at power-on only, a reset loads IP (R39). -/
  ipUndefined : Bool
  /-- What the environment signals in the coming steps, one entry a step; nothing after the last (log 14). -/
  events : List Events
  /-- The MODEL's own: how many undefined values have been drawn (log 5). -/
  draws : Nat
deriving DecidableEq, Repr

/-- Power-on of a Mark II (10_state.md R38, 70_reset_and_hazards.md R291): FR and IR at the document's initial values,
so that the first step processes the reset interrupt. SP, BP and IP are "Undefined" and marked so; that they hold
0x0000 is this model's choice (DESIGN CHOICE, log 2), which no instruction sees while they are undefined. Memory lists
nothing (log 4); no event comes (log 14). -/
def State.reset : State :=
  { cfg := Config.default .markII
    sp := 0x0000#16
    bp := 0x0000#16
    ip := 0x0000#16
    fr := 0x0000#16
    ir := 0x0001#16
    halted := false
    mem := []
    code := []
    spUndefined := true
    bpUndefined := true
    ipUndefined := true
    events := []
    draws := 0 }

/-- Power-on of a Mark II-L (70_reset_and_hazards.md R292): no IR, and the run starts with one RST event, which loads
IP with 0x0000 (log 30). -/
def State.resetMarkIIL : State :=
  { State.reset with
    cfg := Config.default .markIIL
    ir := 0x0000#16
    events := [{ rst := true, nmi := false, irq := false }] }

end Sys2Proof.Machine
end

