-- ==== Sys2Proof/Machine/Flags.lean ====
section
/-! DEFINITION. The flag register: its bits, the conditions, the flag stage, the reserved bits, and the arithmetic that
computes outputs and carries (10_state.md R28 to R34; 40_instruction_cycle.md R114, R122; 43_arithmetic.md). -/

namespace Sys2Proof.Machine

/-- Z, FR bit 0. -/
def flagZ (fr : Word) : Bool := fr.getLsbD 0

/-- N, FR bit 1. -/
def flagN (fr : Word) : Bool := fr.getLsbD 1

/-- C, FR bit 2. -/
def flagC (fr : Word) : Bool := fr.getLsbD 2

/-- CE, FR bit 3. -/
def flagCE (fr : Word) : Bool := fr.getLsbD 3

/-- The word with a 1 in bit `k` only: the document's `1 << k`. -/
def bitMask (k : Nat) : Word := 1#16 <<< k

/-- `w` with bit `k` set to `v`. -/
def writeBit (w : Word) (k : Nat) (v : Bool) : Word :=
  if v then w ||| bitMask k else w &&& ~~~(bitMask k)

/-- `IsExecuted(cond, FR)` (40_instruction_cycle.md R114). -/
def conditionHolds (c : Cond) (fr : Word) : Bool :=
  match c with
  | .always => true
  | .zero => flagZ fr
  | .nonzero => !flagZ fr
  | .greater => !flagZ fr && !flagN fr
  | .less => flagN fr
  | .gequal => flagZ fr || !flagN fr
  | .lequal => flagZ fr || flagN fr
  | .overflow => flagC fr

/-- Z and N from an output, all other bits kept (40_instruction_cycle.md R122). -/
def writeZN (fr output : Word) : Word :=
  writeBit (writeBit fr 0 (output == 0x0000#16)) 1 (output.getLsbD 15)

/-- C as a bit of FR, all other bits kept (10_state.md R30). -/
def writeC (fr : Word) (c : Bool) : Word := writeBit fr 2 c

/-- `FR.C & FR.CE`, the carry-in of ADD and the borrow-in of SUB (43_arithmetic.md R181, R182). -/
def carryIn (fr : Word) : Nat := (flagC fr && flagCE fr).toNat

/-- The bits of FR that must be 0: 15 to 8, and on a Mark II-L also 7 to 4 (10_state.md R41). -/
def reservedFlags : Variant → Word
  | .markII => 0xFF00#16
  | .markIIL => 0xFFF0#16

/-- The bits of IR that must be 0: 15 to 8 and 3 (10_state.md R41). -/
def reservedInterrupts : Word := 0xFF08#16

/-- `sum` of ADD, unbounded (43_arithmetic.md R181). -/
def addSum (a b : Word) (cin : Nat) : Nat := a.toNat + b.toNat + cin

/-- `diff` of SUB, unbounded (43_arithmetic.md R182). -/
def subDifference (a b : Word) (bin : Nat) : Int := (a.toNat : Int) - (b.toNat : Int) - (bin : Int)

/-- `prod` of MUL, the 32-bit product that parameter `MUL_CARRY` names (43_arithmetic.md R183). -/
def mulProduct (m : MulCarry) (a b : Word) : Nat :=
  match m with
  | .unsigned => a.toNat * b.toNat
  | .signed => ((a.toInt * b.toInt) % 2 ^ 32).toNat

/-- The signed quotient, rounded as parameter `DIV_ROUNDING` says (43_arithmetic.md R184). -/
def signedQuotient (r : DivRounding) (a b : Int) : Int :=
  match r with
  | .truncate => a.tdiv b
  | .floor => a.fdiv b

/-- -32768 / -1, the one quotient no signed word holds (43_arithmetic.md R186). -/
def divisionOverflows (a b : Word) : Bool := a == 0x8000#16 && b == 0xFFFF#16

/-- The quotient word for a divisor that is not 0 (43_arithmetic.md R184, R186). -/
def divQuotient (c : Config) (a b : Word) : Word :=
  if divisionOverflows a b then c.divOverflowQuotient
  else BitVec.ofInt 16 (signedQuotient c.divRounding a.toInt b.toInt)

/-- The remainder word for a divisor that is not 0: `a - b * quotient` (43_arithmetic.md R185, R186). -/
def modRemainder (c : Config) (a b : Word) : Word :=
  if divisionOverflows a b then c.divOverflowRemainder
  else BitVec.ofInt 16 (a.toInt - b.toInt * signedQuotient c.divRounding a.toInt b.toInt)

end Sys2Proof.Machine
end

