-- ==== Sys2Proof/Machine/Ops.lean ====
section
/-! DEFINITION. The named operations on memory and registers: byte memory in canonical form, `MemRead`, `MemWrite`,
`MemFetch` (20_memory.md R56 to R58), push (40_instruction_cycle.md R121), drawing undefined values, registers used
as addresses (10_state.md R39), raising and taking interrupts, reset, the interrupt phase
(60_exceptions.md R245, R247, R256), the return from an interrupt (R261), and the rollback after a bus error (R254). -/

namespace Sys2Proof.Machine

/-! ### Byte memory -/

/-- What an address that no cell lists reads as: 0x00 (DESIGN CHOICE, log 4). -/
def unlistedByte : Byte := 0x00#8

/-- MEM8 of one address. -/
def Memory.readByte : Memory → Nat → Byte
  | [], _ => unlistedByte
  | (k, b) :: rest, a => if k = a then b else Memory.readByte rest a

/-- Puts one byte, keeping the canonical form. -/
def Memory.writeByte : Memory → Nat → Byte → Memory
  | [], a, v => if v = unlistedByte then [] else [(a, v)]
  | (k, b) :: rest, a, v =>
    if k < a then (k, b) :: Memory.writeByte rest a v
    else if k = a then (if v = unlistedByte then rest else (a, v) :: rest)
    else if v = unlistedByte then (k, b) :: rest
    else (a, v) :: (k, b) :: rest

/-- Every address of the list lies strictly above `lo - 1`, rising, below 2^16, and no byte is the unlisted one. -/
def Memory.wfFrom : Nat → Memory → Bool
  | _, [] => true
  | lo, (k, b) :: rest => decide (lo ≤ k) && decide (k < 65536) && decide (b ≠ unlistedByte) && Memory.wfFrom (k + 1) rest

/-- The canonical form: addresses strictly rising and below 2^16, no listed byte equal to an unlisted one. -/
def Memory.wf (m : Memory) : Bool := Memory.wfFrom 0 m

/-- MEM16 of an even address, little endian (20_memory.md R53). -/
def Memory.readWord (m : Memory) (a : Word) : Word :=
  m.readByte (a.toNat + 1) ++ m.readByte a.toNat

/-- Puts a word at an even address, little endian (20_memory.md R53). -/
def Memory.writeWord (m : Memory) (a v : Word) : Memory :=
  Memory.writeByte (Memory.writeByte m a.toNat (v.extractLsb' 0 8)) (a.toNat + 1) (v.extractLsb' 8 8)

/-- Bytes stored one after another in a memory, from address `a` on, modulo 2^16. -/
def Memory.writeBytes (m : Memory) (a : Word) : List Byte → Memory
  | [] => m
  | b :: rest => Memory.writeBytes (Memory.writeByte m a.toNat b) (a + 1#16) rest

/-! ### Outcomes of an operation -/

/-- What an operation inside a step answers. -/
inductive Res (α : Type) where
  /-- It is done: a value and the state after it. -/
  | ok (a : α) (s : State)
  /-- The platform signalled BUS on an access (60_exceptions.md R254); `s` is the state at that access. -/
  | busError (s : State)
  /-- Undefined behaviour (00_scope.md R9). -/
  | fault (r : Fault)
deriving DecidableEq, Repr

/-- One operation after another. -/
def Res.bind {α β : Type} (r : Res α) (k : α → State → Res β) : Res β :=
  match r with
  | .ok a s => k a s
  | .busError s => .busError s
  | .fault e => .fault e

/-! ### Undefined values -/

/-- `draw16()` (00_scope.md R12): a fresh undefined word. -/
def draw (s : State) : Word × State :=
  (Config.freeWord s.draws, { s with draws := s.draws + 1 })

/-- The content of an address register, to be used as an address; a fault while it is undefined (10_state.md R39:
"the address uses remain faults"; 40_instruction_cycle.md R125; 41_data_movement.md R142, R143; 60_exceptions.md R268;
70_reset_and_hazards.md R292, R295). -/
def addressIn (r : AddressRegister) (s : State) : Res Word :=
  match r with
  | .sp => if s.spUndefined then .fault (.undefinedAddress .sp) else .ok s.sp s
  | .bp => if s.bpUndefined then .fault (.undefinedAddress .bp) else .ok s.bp s
  | .ip => if s.ipUndefined then .fault (.undefinedAddress .ip) else .ok s.ip s

/-- SP or BP read as a value, `content`, or one drawn for this read while the register is undefined: R39 (10_state.md)
lets a model fault or draw here, and this one draws (log 3). -/
def registerValue (undefined : Bool) (content : Word) (s : State) : Word × State :=
  if undefined then draw s else (content, s)

/-! ### Accesses -/

/-- An address of `device_region` (20_memory.md R62). -/
def State.isDevice (s : State) (a : Nat) : Bool :=
  s.cfg.devices.any fun r => decide (r.first ≤ a) && decide (a ≤ r.last)

/-- `bus_error(address, width, kind)`; never on a Mark II-L (60_exceptions.md R254, R267). -/
def State.busSignalled (s : State) (kind : AccessKind) (width : Nat) (a : Word) : Bool :=
  decide (s.cfg.variant = .markII) &&
    s.cfg.busErrors.any fun w =>
      decide (w.kind = kind) && decide (w.width = width) && decide (w.first ≤ a.toNat) && decide (a.toNat ≤ w.last)

/-- What `MemFetch` reads (20_memory.md R52) outside `device_region` (log 40). -/
def State.fetchMemory (s : State) : Memory :=
  if s.cfg.unifiedMemory then s.mem else s.code

/-- One byte of memory `m`, or any value at a device address (20_memory.md R62). DESIGN CHOICE (log 40): the region
covers the code memory too when it is separate (R52), a combination on which the spec is silent; so a fetch at a device
address draws and does not read `State.code`. -/
def readByteFrom (m : Memory) (a : Nat) (s : State) : Byte × State :=
  if s.isDevice a then ((draw s).1.extractLsb' 0 8, (draw s).2) else (m.readByte a, s)

/-- One word of memory `m`, low byte first. -/
def readWordFrom (m : Memory) (a : Word) (s : State) : Word × State :=
  let lo := readByteFrom m a.toNat s
  let hi := readByteFrom m (a.toNat + 1) lo.2
  (hi.1 ++ lo.1, hi.2)

/-- One byte stored; a device address keeps no byte of memory (20_memory.md R62). -/
def writeByteTo (a : Nat) (v : Byte) (s : State) : State :=
  if s.isDevice a then s else { s with mem := s.mem.writeByte a v }

/-- `MemRead(addr, 1)` (20_memory.md R56). -/
def memRead8 (a : Word) (s : State) : Res Byte :=
  if s.busSignalled .read 1 a then .busError s
  else .ok (readByteFrom s.mem a.toNat s).1 (readByteFrom s.mem a.toNat s).2

/-- `MemRead(addr, 2)` (20_memory.md R56). -/
def memRead16 (a : Word) (s : State) : Res Word :=
  if a.getLsbD 0 then .fault (.misaligned a)
  else if s.busSignalled .read 2 a then .busError s
  else .ok (readWordFrom s.mem a s).1 (readWordFrom s.mem a s).2

/-- `MemFetch(addr)` (20_memory.md R58). -/
def memFetch (a : Word) (s : State) : Res Word :=
  if a.getLsbD 0 then .fault (.misaligned a)
  else if s.busSignalled .fetch 2 a then .busError s
  else .ok (readWordFrom s.fetchMemory a s).1 (readWordFrom s.fetchMemory a s).2

/-- `MemWrite(addr, 1, v)` (20_memory.md R57). -/
def memWrite8 (a v : Word) (s : State) : Res Unit :=
  if s.busSignalled .write 1 a then .busError s
  else .ok () (writeByteTo a.toNat (v.extractLsb' 0 8) s)

/-- `MemWrite(addr, 2, v)` (20_memory.md R57). -/
def memWrite16 (a v : Word) (s : State) : Res Unit :=
  if a.getLsbD 0 then .fault (.misaligned a)
  else if s.busSignalled .write 2 a then .busError s
  else .ok () (writeByteTo (a.toNat + 1) (v.extractLsb' 8 8) (writeByteTo a.toNat (v.extractLsb' 0 8) s))

/-- `push(v)` (40_instruction_cycle.md R121). -/
def push (v : Word) (s : State) : Res Unit :=
  (addressIn .sp s).bind fun sp s => memWrite16 (sp - 2#16) v { s with sp := sp - 2#16 }

/-! ### Registers with reserved bits -/

/-- A write of FR; a 1 in a reserved bit is a fault (10_state.md R41). -/
def writeFR (new : Word) (s : State) : Res Unit :=
  if new &&& reservedFlags s.cfg.variant = 0x0000#16 then .ok () { s with fr := new }
  else .fault .reservedFlagBit

/-! ### Interrupts -/

/-- `Raise(k)` (60_exceptions.md R245): a masked interrupt is lost; a Mark II-L has none. -/
def raiseInterrupt (k : Nat) (s : State) : State :=
  if s.cfg.variant = .markII ∧ (k < 4 ∨ s.fr.getLsbD k = true) then { s with ir := s.ir ||| bitMask k } else s

/-- After a bus error: the registers, `halted` and memory of `s`, the state at the end of phase A, and BUS triggered
(60_exceptions.md R254). Values already drawn stay drawn (log 12). -/
def rollback (s atError : State) : State :=
  raiseInterrupt 2 { s with draws := atError.draws }

/-- SP and BP undefined again (60_exceptions.md R247, 92_eei_decisions.md D28). The registers themselves do not change
(10_state.md R24: not reset changes BP), but no instruction sees what they hold until it is written: a read of the value
draws (`registerValue`), a use as an address is a fault (`addressIn`, R39). -/
def forgetStackRegisters (s : State) : State := { s with spUndefined := true, bpUndefined := true }

/-- IP loaded (10_state.md R26 items 5 and 6); a write makes it defined (R39). -/
def loadIP (target : Word) (s : State) : State := { s with ip := target, ipUndefined := false }

/-- Interrupt 0 taken: the reset sequence of a Mark II (60_exceptions.md R247). -/
def takeReset (s : State) : Res Unit :=
  (memFetch 0x0000#16 s).bind fun entry s =>
    .ok () (forgetStackRegisters { loadIP entry s with fr := 0x0000#16, ir := 0x0000#16, halted := false })

/-- Interrupt `b` taken, for b of 1 to 7: the mask word and IP pushed, IP from the interrupt table, a maskable
interrupt disabled (60_exceptions.md R256, R257). -/
def enterInterrupt (b : Nat) (s : State) : Res Unit :=
  (push (bitMask b) s).bind fun _ s =>
    (push s.ip s).bind fun _ s =>
      (memFetch (BitVec.ofNat 16 (2 * b)) s).bind fun handler s =>
        .ok () { loadIP handler s with fr := if 4 ≤ b then writeBit s.fr b false else s.fr }

/-- The return from an interrupt, and every other absolute jump: IP loaded, the bits of `mask` set in FR
(60_exceptions.md R261, 45_control.md R221). -/
def jumpSettingFlags (target mask : Word) (s : State) : Res Unit :=
  writeFR (s.fr ||| mask) (loadIP target s)

/-- The loop of the interrupt phase over the bits `n` down to 1 of IR: each triggered bit is cleared and its interrupt
entered if it is not masked; answers whether one was (60_exceptions.md R256). -/
def serviceInterrupts : Nat → Bool → State → Res Bool
  | 0, taken, s => .ok taken s
  | n + 1, taken, s =>
    if s.ir.getLsbD (n + 1) then
      if n + 1 < 4 ∨ s.fr.getLsbD (n + 1) = true then
        (enterInterrupt (n + 1) { s with ir := writeBit s.ir (n + 1) false }).bind fun _ s =>
          serviceInterrupts n true s
      else serviceInterrupts n taken { s with ir := writeBit s.ir (n + 1) false }
    else serviceInterrupts n taken s

/-- What the environment signals at the start of this step (60_exceptions.md R246; log 14). -/
def eventsNow (s : State) : Events :=
  match s.events with
  | [] => { rst := false, nmi := false, irq := false }
  | e :: _ => e

/-- Moves on to what the environment signals in the next step. -/
def dropEvents (s : State) : State := { s with events := s.events.tail }

/-- `ExternalEvents()` (60_exceptions.md R246): each signalled pin raises its interrupt. -/
def externalEvents (s : State) : State :=
  let e := eventsNow s
  let s0 := dropEvents s
  let s1 := if e.rst then raiseInterrupt 0 s0 else s0
  let s2 := if e.nmi then raiseInterrupt 1 s1 else s1
  if e.irq then raiseInterrupt 7 s2 else s2

/-- `InterruptPhase()` of a Mark II after the events (60_exceptions.md R256). Reset clears IR, so the loop has nothing
left to do after it. -/
def servicePhase (s : State) : Res Bool :=
  if s.ir.getLsbD 0 then (takeReset s).bind fun _ s => .ok true s
  else serviceInterrupts 15 false s

/-- The start of a step of a Mark II-L: reset is the level of the RST pin (70_reset_and_hazards.md R292). -/
def resetPhaseMarkIIL (s : State) : State :=
  if (eventsNow s).rst then
    forgetStackRegisters { loadIP 0x0000#16 (dropEvents s) with fr := 0x0000#16, halted := false }
  else dropEvents s

/-- Phase A of a step (40_instruction_cycle.md R113). It leaves `halted` set unless it resets: phase B clears it. A bus
error on an access of the phase itself is a fault (60_exceptions.md R268). -/
def interruptPhase (s : State) : Res Bool :=
  match s.cfg.variant with
  | .markIIL => .ok false (resetPhaseMarkIIL s)
  | .markII =>
    match servicePhase (externalEvents s) with
    | .ok taken s1 => .ok taken s1
    | .busError _ => .fault .busErrorInInterruptPhase
    | .fault r => .fault r

/-- Phase C of a step: the opcode word at IP (40_instruction_cycle.md R113). -/
def fetchOpcode (s : State) : Res Word := (addressIn .ip s).bind memFetch

end Sys2Proof.Machine
end

