-- ==== Sys2Proof/Machine/Operands.lean ====
section
/-! DEFINITION. The frame around every command (40_instruction_cycle.md R113): condition, inputs, output, flags, and
what a bus error does to the whole instruction. -/

namespace Sys2Proof.Machine

/-- `FetchInput(mode)` (40_instruction_cycle.md R116). -/
def fetchInput (m : Mode) (s : State) : Res Word :=
  match m with
  | .zero => .ok 0x0000#16 s
  | .immediate => ((addressIn .ip s).bind memFetch).bind fun v s => .ok v { s with ip := s.ip + 2#16 }
  | .peek => (addressIn .sp s).bind memRead16
  | .pop => ((addressIn .sp s).bind memRead16).bind fun v s => .ok v { s with sp := s.sp + 2#16 }

/-- The output stage (40_instruction_cycle.md R120). -/
def outputStage (f : Fields) (output : Word) (s : State) : Res Unit :=
  if f.out then push output s else .ok () s

/-- The flag stage (40_instruction_cycle.md R122). -/
def flagStage (f : Fields) (output : Word) (s : State) : State :=
  if f.flg then { s with fr := writeZN s.fr output } else s

/-- The input stage: input0 first, then input1 (40_instruction_cycle.md R117). -/
def inputStage (f : Fields) (s : State) : Res (Word × Word) :=
  (fetchInput f.in0 s).bind fun input0 s =>
    (fetchInput f.in1 s).bind fun input1 s => .ok (input0, input1) s

/-- The five execution stages: input0, input1, command, output, flags (40_instruction_cycle.md R113, E1 to E5). -/
def executeStages (f : Fields) (body : Word → Word → State → Res Word) (s : State) : Res Unit :=
  (inputStage f s).bind fun inputs s =>
    (body inputs.1 inputs.2 s).bind fun output s =>
      (outputStage f output s).bind fun _ s =>
        .ok () (flagStage f output s)

/-- Phase B and the start of C, of a step that runs an instruction: the CPU is not halted any more (an interrupt has
just woken it if it was), and IP is past the opcode word (40_instruction_cycle.md R113, R127; 60_exceptions.md R260). -/
def passOpcode (s : State) : State := { s with ip := s.ip + 2#16, halted := false }

/-- IP past one input's immediate word, if it has one, without reading it (40_instruction_cycle.md R115). -/
def passImmediate (m : Mode) (s : State) : State :=
  match m with
  | .immediate => { s with ip := s.ip + 2#16 }
  | .zero | .peek | .pop => s

/-- An instruction whose condition is false (40_instruction_cycle.md R115). -/
def ignore (f : Fields) (s : State) : State :=
  passImmediate f.in1 (passImmediate f.in0 (passOpcode s))

/-- One instruction with the command body `body`, from the state at the end of phase A, in which its opcode word is at
IP: phases B to E of 40_instruction_cycle.md R113. A bus error takes the whole instruction back to that state, `halted`
included (60_exceptions.md R254). -/
def runCommand (f : Fields) (body : Word → Word → State → Res Word) (s : State) : Host.Outcome State Fault Refusal :=
  if conditionHolds f.cond s.fr then
    match executeStages f body (passOpcode s) with
    | .ok _ t => .next t
    | .busError t => .next (rollback s t)
    | .fault r => .fault r
  else .next (ignore f s)

/-- A reserved command: undefined behaviour if it is executed, stepped over like any other if its condition is false
(30_encoding.md R91). -/
def runReserved (f : Fields) (s : State) : Host.Outcome State Fault Refusal :=
  if conditionHolds f.cond s.fr then .fault .reservedCommand else .next (ignore f s)

end Sys2Proof.Machine
end

