-- ==== Sys2Proof/Machine/Arithmetic.lean ====
section
/-! DEFINITION. Commands 16 to 20 (43_arithmetic.md). -/

namespace Sys2Proof.Machine

/-- `DivideByZero()`: an undefined output, and ARITH raised if it is enabled (43_arithmetic.md R187; log 7). -/
def divideByZero (s : State) : Res Word :=
  .ok (draw s).1 (raiseInterrupt 4 (draw s).2)

/-- ADD (43_arithmetic.md R181): C is written whatever `flg` and CE are (R180). -/
def execAdd (f : Fields) (s : State) : Host.Outcome State Fault Refusal :=
  runCommand f (fun input0 input1 s =>
    .ok (BitVec.ofNat 16 (addSum input0 input1 (carryIn s.fr)))
      { s with fr := writeC s.fr (decide (2 ^ 16 ≤ addSum input0 input1 (carryIn s.fr))) }) s

/-- SUB (43_arithmetic.md R182): C is the borrow. -/
def execSub (f : Fields) (s : State) : Host.Outcome State Fault Refusal :=
  runCommand f (fun input0 input1 s =>
    .ok (BitVec.ofInt 16 (subDifference input0 input1 (carryIn s.fr)))
      { s with fr := writeC s.fr (decide (subDifference input0 input1 (carryIn s.fr) < 0)) }) s

/-- MUL (43_arithmetic.md R183): C and CE are not read. -/
def execMul (f : Fields) (s : State) : Host.Outcome State Fault Refusal :=
  runCommand f (fun input0 input1 s =>
    .ok (BitVec.ofNat 16 (mulProduct s.cfg.mulCarry input0 input1))
      { s with fr := writeC s.fr (decide (2 ^ 16 ≤ mulProduct s.cfg.mulCarry input0 input1)) }) s

/-- DIV (43_arithmetic.md R184, R186, R187). -/
def execDiv (f : Fields) (s : State) : Host.Outcome State Fault Refusal :=
  runCommand f (fun input0 input1 s =>
    if input1 = 0x0000#16 then divideByZero s else .ok (divQuotient s.cfg input0 input1) s) s

/-- MOD (43_arithmetic.md R185, R186, R187). -/
def execMod (f : Fields) (s : State) : Host.Outcome State Fault Refusal :=
  runCommand f (fun input0 input1 s =>
    if input1 = 0x0000#16 then divideByZero s else .ok (modRemainder s.cfg input0 input1) s) s

end Sys2Proof.Machine
end

