-- ==== Sys2Proof/Machine/Control.lean ====
section
/-! DEFINITION. Commands 32 to 34 (45_control.md) and the reserved rows of the table (30_encoding.md R82, R91). -/

namespace Sys2Proof.Machine

/-- SETIP: the output is the address of the next instruction in memory (45_control.md R221). -/
def execSetip (f : Fields) (s : State) : Host.Outcome State Fault Refusal :=
  runCommand f (fun input0 input1 s =>
    (jumpSettingFlags input0 input1 s).bind fun _ t => .ok s.ip t) s

/-- ADDIP: a byte offset from the address of the next instruction (45_control.md R222). -/
def execAddip (f : Fields) (s : State) : Host.Outcome State Fault Refusal :=
  runCommand f (fun input0 input1 s =>
    (jumpSettingFlags (s.ip + input0) input1 s).bind fun _ t => .ok s.ip t) s

/-- INTR: sets bits of IR, which the next step's interrupt phase acts on (45_control.md R226). -/
def execIntr (f : Fields) (s : State) : Host.Outcome State Fault Refusal :=
  runCommand f (fun input0 _ s =>
    if s.cfg.variant = .markIIL then .fault .intrOnMarkIIL
    else if input0 &&& reservedInterrupts = 0x0000#16 then .ok input0 { s with ir := s.ir ||| input0 }
    else .fault .reservedInterruptBit) s

/-- Reserved command 1 (30_encoding.md R91). -/
def execReservedCmd1 (f : Fields) (s : State) : Host.Outcome State Fault Refusal := runReserved f s

/-- Reserved command 35 (30_encoding.md R91). -/
def execReservedCmd35 (f : Fields) (s : State) : Host.Outcome State Fault Refusal := runReserved f s

/-- Reserved commands 36 to 39 (30_encoding.md R91). -/
def execReservedCmd36to39 (_cmd : BitVec 6) (f : Fields) (s : State) : Host.Outcome State Fault Refusal :=
  runReserved f s

/-- Reserved commands 40 to 47 (30_encoding.md R91). -/
def execReservedCmd40to47 (_cmd : BitVec 6) (f : Fields) (s : State) : Host.Outcome State Fault Refusal :=
  runReserved f s

/-- Reserved commands 48 to 63 (30_encoding.md R91). -/
def execReservedCmd48to63 (_cmd : BitVec 6) (f : Fields) (s : State) : Host.Outcome State Fault Refusal :=
  runReserved f s

/-- A word with bit 15 set is no instruction, whatever its condition field says (30_encoding.md R82). -/
def execReservedBit15 (_w : Word) (_s : State) : Host.Outcome State Fault Refusal :=
  .fault .reservedBit15

end Sys2Proof.Machine
end

