-- ==== Sys2Proof/Machine/DataMovement.lean ====
section
/-! DEFINITION. Commands 0 to 7 (41_data_movement.md). -/

namespace Sys2Proof.Machine

/-- The address of GET and SET: `(BP + 2 * input0) mod 2^16` (41_data_movement.md R142). -/
def indexedAddress (bp index : Word) : Word := bp + 2#16 * index

/-- COPY (41_data_movement.md R141). -/
def execCopy (f : Fields) (s : State) : Host.Outcome State Fault Refusal :=
  runCommand f (fun input0 _ s => .ok input0 s) s

/-- GET (41_data_movement.md R142). -/
def execGet (f : Fields) (s : State) : Host.Outcome State Fault Refusal :=
  runCommand f (fun input0 _ s =>
    (addressIn .bp s).bind fun bp s => memRead16 (indexedAddress bp input0) s) s

/-- SET (41_data_movement.md R143). -/
def execSet (f : Fields) (s : State) : Host.Outcome State Fault Refusal :=
  runCommand f (fun input0 input1 s =>
    (addressIn .bp s).bind fun bp s =>
      (memWrite16 (indexedAddress bp input0) input1 s).bind fun _ s => .ok input1 s) s

/-- STORE8: the low byte of input0 at address input1 (41_data_movement.md R144). -/
def execStore8 (f : Fields) (s : State) : Host.Outcome State Fault Refusal :=
  runCommand f (fun input0 input1 s =>
    (memWrite8 input1 input0 s).bind fun _ s => .ok (input0 &&& 0x00FF#16) s) s

/-- STORE16: input0 at address input1 (41_data_movement.md R145). -/
def execStore16 (f : Fields) (s : State) : Host.Outcome State Fault Refusal :=
  runCommand f (fun input0 input1 s =>
    (memWrite16 input1 input0 s).bind fun _ s => .ok input0 s) s

/-- LOAD8: zero-extended (41_data_movement.md R146). -/
def execLoad8 (f : Fields) (s : State) : Host.Outcome State Fault Refusal :=
  runCommand f (fun input0 _ s => (memRead8 input0 s).bind fun v s => .ok (v.setWidth 16) s) s

/-- LOAD16 (41_data_movement.md R147). -/
def execLoad16 (f : Fields) (s : State) : Host.Outcome State Fault Refusal :=
  runCommand f (fun input0 _ s => memRead16 input0 s) s

end Sys2Proof.Machine
end

