-- ==== Sys2Proof/Machine/LogicShift.lean ====
section
/-! DEFINITION. Commands 21 to 31 (44_logic_shift.md): pure functions of the inputs (R200). -/

namespace Sys2Proof.Machine

/-- AND (44_logic_shift.md R201). -/
def execAnd (f : Fields) (s : State) : Host.Outcome State Fault Refusal :=
  runCommand f (fun input0 input1 s => .ok (input0 &&& input1) s) s

/-- OR (44_logic_shift.md R202). -/
def execOr (f : Fields) (s : State) : Host.Outcome State Fault Refusal :=
  runCommand f (fun input0 input1 s => .ok (input0 ||| input1) s) s

/-- XOR (44_logic_shift.md R203). -/
def execXor (f : Fields) (s : State) : Host.Outcome State Fault Refusal :=
  runCommand f (fun input0 input1 s => .ok (input0 ^^^ input1) s) s

/-- NOT (44_logic_shift.md R204). -/
def execNot (f : Fields) (s : State) : Host.Outcome State Fault Refusal :=
  runCommand f (fun input0 _ s => .ok (~~~input0) s) s

/-- SIGNEXT (44_logic_shift.md R205). -/
def execSignext (f : Fields) (s : State) : Host.Outcome State Fault Refusal :=
  runCommand f (fun input0 _ s =>
    .ok (if input0.getLsbD 7 then 0xFF00#16 ||| input0 else 0x00FF#16 &&& input0) s) s

/-- ROL: `concat(input0[14:0], input0[15])` (44_logic_shift.md R206). -/
def execRol (f : Fields) (s : State) : Host.Outcome State Fault Refusal :=
  runCommand f (fun input0 _ s => .ok (input0.extractLsb' 0 15 ++ input0.extractLsb' 15 1) s) s

/-- ROR: `concat(input0[0], input0[15:1])` (44_logic_shift.md R207). -/
def execRor (f : Fields) (s : State) : Host.Outcome State Fault Refusal :=
  runCommand f (fun input0 _ s => .ok (input0.extractLsb' 0 1 ++ input0.extractLsb' 1 15) s) s

/-- BSWAP: `concat(input0[7:0], input0[15:8])` (44_logic_shift.md R208). -/
def execBswap (f : Fields) (s : State) : Host.Outcome State Fault Refusal :=
  runCommand f (fun input0 _ s => .ok (input0.extractLsb' 0 8 ++ input0.extractLsb' 8 8) s) s

/-- ASR: `concat(input0[15], input0[15:1])` (44_logic_shift.md R209). -/
def execAsr (f : Fields) (s : State) : Host.Outcome State Fault Refusal :=
  runCommand f (fun input0 _ s => .ok (input0.extractLsb' 15 1 ++ input0.extractLsb' 1 15) s) s

/-- LSL: `concat(input0[14:0], '0')` (44_logic_shift.md R210). -/
def execLsl (f : Fields) (s : State) : Host.Outcome State Fault Refusal :=
  runCommand f (fun input0 _ s => .ok (input0.extractLsb' 0 15 ++ 0#1) s) s

/-- LSR: `concat('0', input0[15:1])` (44_logic_shift.md R211). -/
def execLsr (f : Fields) (s : State) : Host.Outcome State Fault Refusal :=
  runCommand f (fun input0 _ s => .ok (0#1 ++ input0.extractLsb' 1 15) s) s

end Sys2Proof.Machine
end

