-- ==== Sys2Proof/Machine/SystemRegisters.lean ====
section
/-! DEFINITION. Commands 8 to 15 (42_system_registers.md). -/

namespace Sys2Proof.Machine

/-- CPUID: both inputs must be zero (42_system_registers.md R161). -/
def execCpuid (f : Fields) (s : State) : Host.Outcome State Fault Refusal :=
  runCommand f (fun input0 input1 s =>
    if input0 = 0x0000#16 ∧ input1 = 0x0000#16 then .ok 0x0000#16 s else .fault .cpuidInput) s

/-- HALT: its output is an undefined value (42_system_registers.md R162; log 6). -/
def execHalt (f : Fields) (s : State) : Host.Outcome State Fault Refusal :=
  runCommand f (fun _ _ s => .ok (draw s).1 { (draw s).2 with halted := true }) s

/-- FRGET (42_system_registers.md R163). -/
def execFrget (f : Fields) (s : State) : Host.Outcome State Fault Refusal :=
  runCommand f (fun _ input1 s => .ok (s.fr &&& ~~~input1) s) s

/-- FRSET: the output is the old FR (42_system_registers.md R164). -/
def execFrset (f : Fields) (s : State) : Host.Outcome State Fault Refusal :=
  runCommand f (fun input0 input1 s =>
    (writeFR ((input0 &&& ~~~input1) ||| (s.fr &&& input1)) s).bind fun _ t => .ok s.fr t) s

/-- BPGET (42_system_registers.md R165). -/
def execBpget (f : Fields) (s : State) : Host.Outcome State Fault Refusal :=
  runCommand f (fun _ _ s => .ok (registerValue s.bpUndefined s.bp s).1 (registerValue s.bpUndefined s.bp s).2) s

/-- BPSET: the output is the old BP (42_system_registers.md R166). The first write makes BP defined (10_state.md R39). -/
def execBpset (f : Fields) (s : State) : Host.Outcome State Fault Refusal :=
  runCommand f (fun input0 _ s =>
    .ok (registerValue s.bpUndefined s.bp s).1
      { (registerValue s.bpUndefined s.bp s).2 with bp := input0, bpUndefined := false }) s

/-- SPGET: SP after the input stage (42_system_registers.md R167). -/
def execSpget (f : Fields) (s : State) : Host.Outcome State Fault Refusal :=
  runCommand f (fun _ _ s => .ok (registerValue s.spUndefined s.sp s).1 (registerValue s.spUndefined s.sp s).2) s

/-- SPSET: the output is the old SP, after the input stage (42_system_registers.md R168). The first write makes SP
defined (10_state.md R39). -/
def execSpset (f : Fields) (s : State) : Host.Outcome State Fault Refusal :=
  runCommand f (fun input0 _ s =>
    .ok (registerValue s.spUndefined s.sp s).1
      { (registerValue s.spUndefined s.sp s).2 with sp := input0, spUndefined := false }) s

end Sys2Proof.Machine
end

