-- ==== Sys2Proof/Machine/Dispatch.lean ====
section
/-! DEFINITION. One arm for each constructor of `Instr`: the meaning of each instruction, from the state at the end of
the interrupt phase with its opcode word at IP (40_instruction_cycle.md R113). -/

namespace Sys2Proof.Machine

def exec (i : Instr) (s : State) : Host.Outcome State Fault Refusal :=
  match i with
  | .copy f => Sys2Proof.Machine.execCopy f s
  | .get f => Sys2Proof.Machine.execGet f s
  | .set f => Sys2Proof.Machine.execSet f s
  | .store8 f => Sys2Proof.Machine.execStore8 f s
  | .store16 f => Sys2Proof.Machine.execStore16 f s
  | .load8 f => Sys2Proof.Machine.execLoad8 f s
  | .load16 f => Sys2Proof.Machine.execLoad16 f s
  | .cpuid f => Sys2Proof.Machine.execCpuid f s
  | .halt f => Sys2Proof.Machine.execHalt f s
  | .frget f => Sys2Proof.Machine.execFrget f s
  | .frset f => Sys2Proof.Machine.execFrset f s
  | .bpget f => Sys2Proof.Machine.execBpget f s
  | .bpset f => Sys2Proof.Machine.execBpset f s
  | .spget f => Sys2Proof.Machine.execSpget f s
  | .spset f => Sys2Proof.Machine.execSpset f s
  | .add f => Sys2Proof.Machine.execAdd f s
  | .sub f => Sys2Proof.Machine.execSub f s
  | .mul f => Sys2Proof.Machine.execMul f s
  | .div f => Sys2Proof.Machine.execDiv f s
  | .mod f => Sys2Proof.Machine.execMod f s
  | .and f => Sys2Proof.Machine.execAnd f s
  | .or f => Sys2Proof.Machine.execOr f s
  | .xor f => Sys2Proof.Machine.execXor f s
  | .not f => Sys2Proof.Machine.execNot f s
  | .signext f => Sys2Proof.Machine.execSignext f s
  | .rol f => Sys2Proof.Machine.execRol f s
  | .ror f => Sys2Proof.Machine.execRor f s
  | .bswap f => Sys2Proof.Machine.execBswap f s
  | .asr f => Sys2Proof.Machine.execAsr f s
  | .lsl f => Sys2Proof.Machine.execLsl f s
  | .lsr f => Sys2Proof.Machine.execLsr f s
  | .setip f => Sys2Proof.Machine.execSetip f s
  | .addip f => Sys2Proof.Machine.execAddip f s
  | .intr f => Sys2Proof.Machine.execIntr f s
  | .reservedCmd1 f => Sys2Proof.Machine.execReservedCmd1 f s
  | .reservedCmd35 f => Sys2Proof.Machine.execReservedCmd35 f s
  | .reservedCmd36to39 cmd f => Sys2Proof.Machine.execReservedCmd36to39 cmd f s
  | .reservedCmd40to47 cmd f => Sys2Proof.Machine.execReservedCmd40to47 cmd f s
  | .reservedCmd48to63 cmd f => Sys2Proof.Machine.execReservedCmd48to63 cmd f s
  | .reservedBit15 w => Sys2Proof.Machine.execReservedBit15 w s

end Sys2Proof.Machine
end

