-- ==== Sys2Proof/Machine/Step.lean ====
section
/-! DEFINITION. One step of the CPU (40_instruction_cycle.md R113): the interrupt phase, the halted test, the opcode
fetch, the instruction. -/

namespace Sys2Proof.Machine

/-- Phases C to E: fetch at IP, decode, execute. A bus error on the opcode fetch takes the step back to the end of
phase A (60_exceptions.md R254). -/
def fetchAndExecute (s : State) : Host.Outcome State Fault Refusal :=
  match fetchOpcode s with
  | .ok w t => exec (decodeWord w) t
  | .busError t => .next (rollback s t)
  | .fault r => .fault r

/-- One step, of either variant: a halted CPU that no interrupt or reset has woken fetches nothing
(40_instruction_cycle.md R113, R127). A woken one is still marked halted when it goes on, so that a bus error can restore
that (60_exceptions.md R254); `passOpcode` clears the mark. -/
def step (s : State) : Host.Outcome State Fault Refusal :=
  match interruptPhase s with
  | .ok taken t => if t.halted && !taken then .next t else fetchAndExecute t
  | .busError _ => .fault .busErrorInInterruptPhase
  | .fault r => .fault r

/-- `s` made to run the given instruction in its very next step: nothing triggered, nothing signalled, not halted, IP
even, no register undefined, and the instruction (with operand words of zeros) stored at IP in the memory that fetches
read. From `State.reset` this is the alternative start of 70_reset_and_hazards.md R291, "the state after this sequence",
with IR = 0 and IP = MEM16[0x0000] = 0x0000, once R295's SPSET and BPSET have made SP and BP usable (log 22). -/
def State.withFetchWord (s : State) (nbits w : Nat) : State :=
  let ip := s.ip &&& 0xFFFE#16
  let bytes := tableBytes nbits w
  { s with
    ip := ip
    ir := 0x0000#16
    halted := false
    spUndefined := false
    bpUndefined := false
    ipUndefined := false
    events := { rst := false, nmi := false, irq := false } :: s.events
    mem := if s.cfg.unifiedMemory then Memory.writeBytes s.mem ip bytes else s.mem
    code := if s.cfg.unifiedMemory then s.code else Memory.writeBytes s.code ip bytes }

end Sys2Proof.Machine
end

