-- ==== Sys2Proof/Safety.lean ====
section
/-! DEFINITION. The terms the statements are written in: the closed forms of what the instruction cycle does on a
platform without bus errors and devices, where an instruction may store, what an access sees of device bytes, several
interrupts at once, the invariant of the machine, and what a safe run is. -/

namespace Sys2Proof

/-- The instruction is one of the 34 defined commands (30_encoding.md R92). -/
def Instr.isDefined : Instr → Bool
  | .reservedCmd1 _ | .reservedCmd35 _ | .reservedCmd36to39 _ _ | .reservedCmd40to47 _ _ | .reservedCmd48to63 _ _
  | .reservedBit15 _ => false
  | _ => true

end Sys2Proof

namespace Sys2Proof.Machine

/-! ### Conditions on a state -/

/-- The platform parameters `bus_error` and `device_region` at their defaults (00_scope.md section 4). -/
abbrev State.Plain (s : State) : Prop := s.cfg.busErrors = [] ∧ s.cfg.devices = []

/-- An address a 16-bit access may use (20_memory.md R55). -/
abbrev IsEven (a : Word) : Prop := a.getLsbD 0 = false

/-- Push, pop and peek may use SP: its content is defined (10_state.md R39) and even (R40). -/
abbrev State.StackUsable (s : State) : Prop := s.spUndefined = false ∧ IsEven s.sp

/-- GET and SET may use BP: its content is defined (10_state.md R39) and even (R40). -/
abbrev State.BaseUsable (s : State) : Prop := s.bpUndefined = false ∧ IsEven s.bp

/-- A fetch may use IP: its content is defined (10_state.md R39) and even (R40). -/
abbrev State.FetchUsable (s : State) : Prop := s.ipUndefined = false ∧ IsEven s.ip

/-- The environment signals nothing in the coming step. -/
abbrev State.NoEvent (s : State) : Prop :=
  eventsNow s = { rst := false, nmi := false, irq := false }

/-! ### The instruction cycle in closed form (40_instruction_cycle.md R113 to R122) -/

/-- An input of this mode reads the stack (40_instruction_cycle.md R116). -/
def readsStack : Mode → Bool
  | .peek | .pop => true
  | .zero | .immediate => false

/-- What `SP` gains by an input of this mode. -/
def popBytes : Mode → Nat
  | .pop => 2
  | .zero | .immediate | .peek => 0

/-- What `IP` gains by an input of this mode. -/
def immediateBytes : Mode → Nat
  | .immediate => 2
  | .zero | .peek | .pop => 0

/-- The address of the next instruction in memory (10_state.md R26). -/
def nextIp (f : Fields) (s : State) : Word :=
  s.ip + 2#16 + BitVec.ofNat 16 (immediateBytes f.in0) + BitVec.ofNat 16 (immediateBytes f.in1)

/-- SP when the command body runs (40_instruction_cycle.md R119). -/
def spAfterInputs (f : Fields) (s : State) : Word :=
  s.sp + BitVec.ofNat 16 (popBytes f.in0) + BitVec.ofNat 16 (popBytes f.in1)

/-- The value of input0: its immediate word stands at IP + 2, the stack top at SP. -/
def operand0 (f : Fields) (s : State) : Word :=
  match f.in0 with
  | .zero => 0x0000#16
  | .immediate => s.fetchMemory.readWord (s.ip + 2#16)
  | .peek | .pop => s.mem.readWord s.sp

/-- The value of input1: behind input0's immediate word if there is one, below input0's popped word if there is one
(40_instruction_cycle.md R117). -/
def operand1 (f : Fields) (s : State) : Word :=
  match f.in1 with
  | .zero => 0x0000#16
  | .immediate => s.fetchMemory.readWord (s.ip + 2#16 + BitVec.ofNat 16 (immediateBytes f.in0))
  | .peek | .pop => s.mem.readWord (s.sp + BitVec.ofNat 16 (popBytes f.in0))

/-- The state in which the command body runs. -/
def afterInputs (f : Fields) (s : State) : State :=
  { s with ip := nextIp f s, sp := spAfterInputs f s }

/-- The instruction is executed and both inputs can be read: the CPU is not halted, the condition holds, IP is defined
and even if an immediate is read, SP is defined and even if the stack is read, on a plain platform. -/
abbrev Executes (f : Fields) (s : State) : Prop :=
  s.Plain ∧ s.halted = false ∧ conditionHolds f.cond s.fr = true ∧
    ((f.in0 = .immediate ∨ f.in1 = .immediate) → s.FetchUsable) ∧
    ((readsStack f.in0 = true ∨ readsStack f.in1 = true) → s.StackUsable)

/-- An output, if it is pushed, can be pushed through the SP of `s`, the state after the command body. -/
abbrev CanPush (f : Fields) (s : State) : Prop := f.out = true → s.StackUsable

/-- FR with Z and N taken from an output, the other bits kept (40_instruction_cycle.md R122). -/
def withZN (fr output : Word) : Word :=
  (fr &&& 0xFFFC#16) ||| (if output = 0x0000#16 then 0x0001#16 else 0x0000#16)
    ||| (if 0x8000 ≤ output.toNat then 0x0002#16 else 0x0000#16)

/-- FR with this C, the other bits kept (10_state.md R30). -/
def withC (fr : Word) (c : Bool) : Word :=
  (fr &&& 0xFFFB#16) ||| (if c then 0x0004#16 else 0x0000#16)

/-- The output and flag stages after a command body that left `s`: the output pushed if `out = 1`, Z and N taken from
it if `flg = 1` (40_instruction_cycle.md R120 to R122). -/
def delivered (f : Fields) (output : Word) (s : State) : State :=
  { s with
    sp := if f.out then s.sp - 2#16 else s.sp
    mem := if f.out then s.mem.writeWord (s.sp - 2#16) output else s.mem
    fr := if f.flg then withZN s.fr output else s.fr }

/-! ### Where an instruction stores -/

/-- The bytes a 16-bit access touches. -/
def wordAddresses (a : Word) : List Nat := [a.toNat, a.toNat + 1]

/-- The bytes a command body stores to, from its inputs and the state it runs in (41_data_movement.md R143 to R145). -/
def bodyStores (i : Instr) (input0 input1 : Word) (s : State) : List Nat :=
  match i with
  | .set _ => wordAddresses (indexedAddress s.bp input0)
  | .store8 _ => [input1.toNat]
  | .store16 _ => wordAddresses input1
  | _ => []

/-- The SP the output stage pushes through: SPSET's push uses the new SP (40_instruction_cycle.md R120). -/
def pushSp (i : Instr) (input0 : Word) (s : State) : Word :=
  match i with
  | .spset _ => input0
  | _ => s.sp

/-- Every byte an instruction with the fields `f` may store to: none if it is ignored; else the command's own bytes and
the pushed word's. -/
def storeAddresses (i : Instr) (f : Fields) (s : State) : List Nat :=
  if conditionHolds f.cond s.fr then
    match inputStage f (passOpcode s) with
    | .ok inputs t =>
      bodyStores i inputs.1 inputs.2 t ++
        (if f.out then wordAddresses (pushSp i inputs.1 t - 2#16) else [])
    | .busError _ | .fault _ => []
  else []

/-! ### Device bytes -/

/-- What an access sees of the byte at `a` of memory `m`: at a device address the low byte of the `n`-th drawn value
(20_memory.md R62; log 13). -/
def byteSeen (s : State) (m : Memory) (a n : Nat) : Byte :=
  if s.isDevice a then (Config.freeWord n).extractLsb' 0 8 else m.readByte a

/-- How many values a read of the byte at `a` draws. -/
def drawsAt (s : State) (a : Nat) : Nat := if s.isDevice a then 1 else 0

/-- Memory after a byte was stored at `a`: a device keeps none. -/
def byteKept (s : State) (m : Memory) (a : Nat) (v : Byte) : Memory :=
  if s.isDevice a then m else m.writeByte a v

/-! ### Several interrupts at once -/

/-- The interrupts that a phase enters from `s`, in its order: the triggered ones that are not masked, highest number
first (60_exceptions.md R256, R258). -/
def dueInterrupts (s : State) : List Nat :=
  [15, 14, 13, 12, 11, 10, 9, 8, 7, 6, 5, 4, 3, 2, 1].filter fun b =>
    s.ir.getLsbD b && (decide (b < 4) || s.fr.getLsbD b)

/-- Interrupts entered one after another, each from the state the entry before it left. -/
def enterAll : List Nat → State → Res Unit
  | [], s => .ok () s
  | b :: rest, s => (enterInterrupt b s).bind fun _ s => enterAll rest s

/-! ### The invariant, and safe runs -/

/-- The bits of IR that are 0 in every state a run reaches: the reserved ones (10_state.md R41), and all of them on a
Mark II-L, which has no IR (R35). -/
def idleInterrupts : Variant → Word
  | .markII => reservedInterrupts
  | .markIIL => 0xFFFF#16

/-- What every step keeps: both memories canonical, the reserved bits of FR and IR 0. -/
abbrev State.Inv (s : State) : Prop :=
  s.mem.wf = true ∧ s.code.wf = true ∧ s.fr &&& reservedFlags s.cfg.variant = 0x0000#16 ∧
    s.ir &&& idleInterrupts s.cfg.variant = 0x0000#16

/-- A step that has a successor: no undefined behaviour was met. -/
def StepsSafely (s : State) : Prop := ∃ t, step s = .next t

/-- A run of `n` steps that meets no undefined behaviour. -/
def RunsSafely (n : Nat) (s : State) : Prop :=
  ∃ t : State, Host.Core.run Sys2Proof.core n s = .next t

end Sys2Proof.Machine
end

