-- ==== Sys2Proof/Certificates/Slice0/Obligations.lean ====
section
/-! DEFINITION. The statements for the provers. `Executes`, `CanPush`, `operand0`, `operand1`, `afterInputs`,
`delivered` and the rest of their vocabulary are in Safety.lean. A docstring names the rule of the spec a statement
formalises, and the log entry of every choice of the model it rests on. -/

section Obligations

open Sys2Proof Sys2Proof.Machine

/-! ### Encoding -/

/-- R94: decode(encode(i)) = i, on opcode words, for every well-formed term of every row. -/
def Obligations.DecodeEncodeWord : Prop :=
  ∀ i : Instr, i.WellFormed = true → decodeWord (encodeWord i) = i

/-- R94: encode(decode(w)) = w; here for every word, the reserved ones too, and what is decoded is well formed. -/
def Obligations.EncodeDecodeWord : Prop :=
  ∀ w : Word, encodeWord (decodeWord w) = w ∧ (decodeWord w).WellFormed = true

/-- R90, R94: the bytes of an instruction with its immediates decode to it, and the bytes behind it are left over. -/
def Obligations.DecodeEncodeBytes : Prop :=
  ∀ (a : Assembled) (rest : List Byte), a.WellFormed = true → decode (encodeBytes a ++ rest) = .ok (a, rest)

/-- R88: the encoding formula, and the decoding of each field. -/
def Obligations.OpcodeFormula : Prop :=
  ∀ (c : BitVec 6) (f : Fields),
    (opcodeWord c f).toNat =
      c.toNat * 2 ^ 9 + f.out.toNat * 2 ^ 8 + f.flg.toNat * 2 ^ 7 + f.in1.toBits.toNat * 2 ^ 5
        + f.in0.toBits.toNat * 2 ^ 3 + f.cond.toBits.toNat ∧
    (opcodeWord c f).extractLsb' 9 6 = c ∧ Fields.ofBits ((opcodeWord c f).extractLsb' 0 9) = f

/-- R89: the length in bytes, that the encoded bytes have it, and that bits [6:3] of the opcode word decide it. -/
def Obligations.InstructionLength : Prop :=
  (∀ (i : Instr) (f : Fields), i.fields? = some f →
    i.length = 2 + (if f.in0 = .immediate then 2 else 0) + (if f.in1 = .immediate then 2 else 0)) ∧
  (∀ a : Assembled, a.WellFormed = true → (encodeBytes a).length = a.instr.length) ∧
  (∀ v w : Word, v.getLsbD 15 = false → w.getLsbD 15 = false → v.extractLsb' 3 4 = w.extractLsb' 3 4 →
    (decodeWord v).length = (decodeWord w).length)

/-- R92: a word decodes to a defined command exactly if bit 15 is 0 and its command number is not 1 or 35 to 63; a
word with bit 15 set is its own row. -/
def Obligations.ReservedPartition : Prop :=
  ∀ w : Word,
    ((decodeWord w).isDefined = true ↔
      w.getLsbD 15 = false ∧ (w.extractLsb' 9 6).toNat ≠ 1 ∧ (w.extractLsb' 9 6).toNat < 35) ∧
    (w.getLsbD 15 = true → decodeWord w = .reservedBit15 w)

/-- The vectors EN1, EN5, EN7, EN8, EN9 and EN14 of 95_test_vectors.md, and one word of each reserved group. -/
def Obligations.EncodingSamples : Prop :=
  decodeWord 0x0000#16 = .copy ⟨.always, .zero, .zero, false, false⟩ ∧
  decodeWord 0x22B0#16 = .sub ⟨.always, .peek, .immediate, true, false⟩ ∧
  decodeWord 0x0628#16 = .set ⟨.always, .immediate, .immediate, false, false⟩ ∧
  decodeWord 0x3F9F#16 = .lsr ⟨.overflow, .pop, .zero, true, true⟩ ∧
  decodeWord 0x420A#16 = .addip ⟨.nonzero, .immediate, .zero, false, false⟩ ∧
  decodeWord 0x17AE#16 = .frset ⟨.lequal, .immediate, .immediate, true, true⟩ ∧
  decodeWord 0x0200#16 = .reservedCmd1 ⟨.always, .zero, .zero, false, false⟩ ∧
  decodeWord 0x7E00#16 = .reservedCmd48to63 0x3F#6 ⟨.always, .zero, .zero, false, false⟩ ∧
  decodeWord 0x8000#16 = .reservedBit15 0x8000#16

/-! ### Memory -/

/-- R53: the less significant byte at the lower address, for the word read and for the bytes written. -/
def Obligations.LittleEndian : Prop :=
  ∀ (m : Memory) (a v : Word), m.wf = true → IsEven a →
    m.readWord a = (m.readByte a.toNat).setWidth 16 ||| ((m.readByte (a.toNat + 1)).setWidth 16 <<< 8) ∧
    (m.writeWord a v).readByte a.toNat = v.extractLsb' 0 8 ∧
    (m.writeWord a v).readByte (a.toNat + 1) = v.extractLsb' 8 8 ∧
    (m.writeWord a v).readWord a = v

/-- R57, on plain memory: a data write stores its bytes and leaves every other byte, and everything else, unchanged. -/
def Obligations.WriteStoresItsBytesOnly : Prop :=
  ∀ (s : State) (a v : Word), s.Plain → s.mem.wf = true →
    (∃ m : Memory, memWrite8 a v s = .ok () { s with mem := m } ∧ m.wf = true ∧
      m.readByte a.toNat = v.extractLsb' 0 8 ∧ ∀ x, x ≠ a.toNat → m.readByte x = s.mem.readByte x) ∧
    (IsEven a → ∃ m : Memory, memWrite16 a v s = .ok () { s with mem := m } ∧ m.wf = true ∧
      m.readByte a.toNat = v.extractLsb' 0 8 ∧ m.readByte (a.toNat + 1) = v.extractLsb' 8 8 ∧
      ∀ x, x ≠ a.toNat → x ≠ a.toNat + 1 → m.readByte x = s.mem.readByte x)

/-- R55: every 16-bit access at an odd address is undefined behaviour, on every platform: data read, data write,
fetch, push, pop and peek. R39: a push, pop, peek or fetch through an SP or IP whose content is undefined is too. The
fault that stands for both is 00_scope.md R9's treatment (decision D3). -/
def Obligations.OddWordAccessFaults : Prop :=
  (∀ (s : State) (a v : Word), ¬ IsEven a →
    memRead16 a s = .fault (.misaligned a) ∧ memWrite16 a v s = .fault (.misaligned a) ∧
    memFetch a s = .fault (.misaligned a) ∧
    push v { s with sp := a, spUndefined := false } = .fault (.misaligned (a - 2#16)) ∧
    fetchInput .peek { s with sp := a, spUndefined := false } = .fault (.misaligned a) ∧
    fetchInput .pop { s with sp := a, spUndefined := false } = .fault (.misaligned a) ∧
    fetchInput .immediate { s with ip := a, ipUndefined := false } = .fault (.misaligned a) ∧
    fetchOpcode { s with ip := a, ipUndefined := false } = .fault (.misaligned a)) ∧
  (∀ (s : State) (v : Word), s.spUndefined = true →
    push v s = .fault (.undefinedAddress .sp) ∧
    fetchInput .peek s = .fault (.undefinedAddress .sp) ∧
    fetchInput .pop s = .fault (.undefinedAddress .sp)) ∧
  (∀ s : State, s.ipUndefined = true →
    fetchInput .immediate s = .fault (.undefinedAddress .ip) ∧ fetchOpcode s = .fault (.undefinedAddress .ip))

/-- The model's canonical form of memory (log 4): memories with equal contents are equal data. -/
def Obligations.EqualContentsEqualMemory : Prop :=
  ∀ m n : Memory, m.wf = true → n.wf = true → (∀ x, m.readByte x = n.readByte x) → m = n

/-- R62 with the model's reading of it (log 13): each device byte of a read or a fetch is a value drawn for this access,
one draw a byte, low byte first, and a write to a device byte changes no byte of memory; bytes of one word outside the
device are plain memory. That the region covers a separate code memory too is the model's choice (log 40). -/
def Obligations.DeviceBytes : Prop :=
  (∀ (s : State) (a v : Word), s.isDevice a.toNat = true →
    (s.busSignalled .read 1 a = false →
      memRead8 a s = .ok ((Config.freeWord s.draws).extractLsb' 0 8) { s with draws := s.draws + 1 }) ∧
    (s.busSignalled .write 1 a = false → memWrite8 a v s = .ok () s)) ∧
  (∀ (s : State) (a v : Word) (n : Nat), IsEven a → n = s.draws + drawsAt s a.toNat →
    (s.busSignalled .read 2 a = false →
      memRead16 a s = .ok (byteSeen s s.mem (a.toNat + 1) n ++ byteSeen s s.mem a.toNat s.draws)
        { s with draws := n + drawsAt s (a.toNat + 1) }) ∧
    (s.busSignalled .fetch 2 a = false →
      memFetch a s =
        .ok (byteSeen s s.fetchMemory (a.toNat + 1) n ++ byteSeen s s.fetchMemory a.toNat s.draws)
          { s with draws := n + drawsAt s (a.toNat + 1) }) ∧
    (s.busSignalled .write 2 a = false →
      memWrite16 a v s = .ok () { s with
        mem := byteKept s (byteKept s s.mem a.toNat (v.extractLsb' 0 8)) (a.toNat + 1) (v.extractLsb' 8 8) }))

/-! ### The frame of every command -/

/-- R114: the eight conditions, and that only Z, N and C of FR matter. -/
def Obligations.ConditionTable : Prop :=
  (∀ fr : Word,
    conditionHolds (Cond.ofBits 0#3) fr = true ∧
    (conditionHolds (Cond.ofBits 1#3) fr = true ↔ fr.getLsbD 0 = true) ∧
    (conditionHolds (Cond.ofBits 2#3) fr = true ↔ fr.getLsbD 0 = false) ∧
    (conditionHolds (Cond.ofBits 3#3) fr = true ↔ fr.getLsbD 0 = false ∧ fr.getLsbD 1 = false) ∧
    (conditionHolds (Cond.ofBits 4#3) fr = true ↔ fr.getLsbD 1 = true) ∧
    (conditionHolds (Cond.ofBits 5#3) fr = true ↔ fr.getLsbD 0 = true ∨ fr.getLsbD 1 = false) ∧
    (conditionHolds (Cond.ofBits 6#3) fr = true ↔ fr.getLsbD 0 = true ∨ fr.getLsbD 1 = true) ∧
    (conditionHolds (Cond.ofBits 7#3) fr = true ↔ fr.getLsbD 2 = true)) ∧
  (∀ (c : Cond) (fr fr' : Word), fr.extractLsb' 0 3 = fr'.extractLsb' 0 3 →
    conditionHolds c fr = conditionHolds c fr')

/-- R115: an ignored instruction, of any row with fields, on any platform and through any IP, changes nothing but IP,
which goes past its immediates. (That the CPU is not halted shuts no form out: `StepAfterInterrupts`.) -/
def Obligations.IgnoredInstruction : Prop :=
  ∀ (i : Instr) (f : Fields) (s : State), s.halted = false → i.fields? = some f → conditionHolds f.cond s.fr = false →
    exec i s = .next { s with
      ip := s.ip + 2#16 + (if f.in0 = .immediate then 2#16 else 0#16) + (if f.in1 = .immediate then 2#16 else 0#16) }

/-- R116, R117, on a plain platform: the two inputs, input0 first; with two pops input0 is the stack top and input1 the
word below it, with two immediates input0's word stands first. What the input stage leaves is `afterInputs`. -/
def Obligations.InputsInOrder : Prop :=
  ∀ (f : Fields) (s : State), Executes f s →
    inputStage f (passOpcode s) = .ok (operand0 f s, operand1 f s) (afterInputs f s) ∧
    (f.in0 = .pop → f.in1 = .pop →
      operand0 f s = s.mem.readWord s.sp ∧ operand1 f s = s.mem.readWord (s.sp + 2#16) ∧
        (afterInputs f s).sp = s.sp + 4#16) ∧
    (f.in0 = .peek → f.in1 = .pop →
      operand0 f s = s.mem.readWord s.sp ∧ operand1 f s = s.mem.readWord s.sp ∧
        (afterInputs f s).sp = s.sp + 2#16) ∧
    (f.in0 = .immediate → f.in1 = .immediate →
      operand0 f s = s.fetchMemory.readWord (s.ip + 2#16) ∧
        operand1 f s = s.fetchMemory.readWord (s.ip + 4#16) ∧ (afterInputs f s).ip = s.ip + 6#16)

/-- R122: with `flg = 1` Z and N are taken from the output and every other bit of FR stays; with `flg = 0` nothing
changes; nothing but FR changes. -/
def Obligations.FlagStage : Prop :=
  ∀ (f : Fields) (output : Word) (s : State),
    (∃ fr : Word, flagStage f output s = { s with fr := fr } ∧ (f.flg = false → fr = s.fr)) ∧
    (f.flg = true →
      (flagStage f output s).fr.getLsbD 0 = decide (output = 0x0000#16) ∧
      (flagStage f output s).fr.getLsbD 1 = output.getLsbD 15) ∧
    ∀ k, 2 ≤ k → (flagStage f output s).fr.getLsbD k = s.fr.getLsbD k

/-- R121, on plain memory: push decrements SP by two, then stores at the decremented address; a push and a pop give the
value back (R65). SP and the address are taken modulo 2^16 (R13, decision D5; log 26). -/
def Obligations.PushThenPop : Prop :=
  ∀ (v : Word) (s : State), s.Plain → s.mem.wf = true → s.StackUsable →
    push v s = .ok () { s with sp := s.sp - 2#16, mem := s.mem.writeWord (s.sp - 2#16) v } ∧
    (push v s).bind (fun _ t => fetchInput .pop t) =
      .ok v { s with mem := s.mem.writeWord (s.sp - 2#16) v }

/-! ### Data movement -/

/-- R141. -/
def Obligations.CopyResult : Prop :=
  ∀ (f : Fields) (s : State), Executes f s → CanPush f (afterInputs f s) →
    encodeWord (.copy f) = opcodeWord 0b000000#6 f ∧
    exec (.copy f) s = .next (delivered f (operand0 f s) (afterInputs f s))

/-- R142, R143: with a BP that is defined (R39) and even, GET reads `MEM16[(BP + 2 * input0) mod 2^16]`, and SET stores
input1 there before the push, its output being input1. The address is taken modulo 2^16 (R13, decision D5; log 26). -/
def Obligations.IndexedResults : Prop :=
  ∀ (f : Fields) (s : State), Executes f s → CanPush f (afterInputs f s) → s.BaseUsable →
    exec (.get f) s =
      .next (delivered f (s.mem.readWord (s.bp + 2#16 * operand0 f s)) (afterInputs f s)) ∧
    exec (.set f) s =
      .next (delivered f (operand1 f s)
        { afterInputs f s with mem := s.mem.writeWord (s.bp + 2#16 * operand0 f s) (operand1 f s) })

/-- R144, R145: STORE8 stores the low byte of input0 at any address input1, its output is `input0 & 0xFF` (that the
stored byte is the low one is the spec's decision D7, log 25); STORE16 stores input0 at an even address input1, its
output is input0. Both store before the push. -/
def Obligations.StoreResults : Prop :=
  ∀ (f : Fields) (s : State), Executes f s → CanPush f (afterInputs f s) →
    exec (.store8 f) s =
      .next (delivered f (operand0 f s &&& 0x00FF#16)
        { afterInputs f s with
          mem := s.mem.writeByte (operand1 f s).toNat ((operand0 f s).extractLsb' 0 8) }) ∧
    (IsEven (operand1 f s) →
      exec (.store16 f) s =
        .next (delivered f (operand0 f s)
          { afterInputs f s with mem := s.mem.writeWord (operand1 f s) (operand0 f s) }))

/-- R146, R147: LOAD8 reads a byte at any address and zero-extends it (decision D7, log 25); LOAD16 reads a word at an
even address. -/
def Obligations.LoadResults : Prop :=
  ∀ (f : Fields) (s : State), Executes f s → CanPush f (afterInputs f s) →
    exec (.load8 f) s =
      .next (delivered f ((s.mem.readByte (operand0 f s).toNat).setWidth 16) (afterInputs f s)) ∧
    (IsEven (operand0 f s) →
      exec (.load16 f) s = .next (delivered f (s.mem.readWord (operand0 f s)) (afterInputs f s)))

/-- R142, R143, R145, R147: GET and SET with an odd BP (R40, decision D6; log 16) or an undefined one (R39) and STORE16
and LOAD16 with an odd address are undefined behaviour, so the model faults, naming the register or the address. -/
def Obligations.OddAddressCommandsFault : Prop :=
  ∀ (f : Fields) (s : State), Executes f s →
    (s.bpUndefined = true →
      exec (.get f) s = .fault (.undefinedAddress .bp) ∧ exec (.set f) s = .fault (.undefinedAddress .bp)) ∧
    (s.bpUndefined = false → ¬ IsEven s.bp →
      exec (.get f) s = .fault (.misaligned (s.bp + 2#16 * operand0 f s)) ∧
      exec (.set f) s = .fault (.misaligned (s.bp + 2#16 * operand0 f s))) ∧
    (¬ IsEven (operand1 f s) → exec (.store16 f) s = .fault (.misaligned (operand1 f s))) ∧
    (¬ IsEven (operand0 f s) → exec (.load16 f) s = .fault (.misaligned (operand0 f s)))

/-! ### System registers -/

/-- R161: CPUID with both inputs zero answers zero; with a non-zero input the model faults (decision D15, log 18). -/
def Obligations.CpuidResult : Prop :=
  ∀ (f : Fields) (s : State), Executes f s → CanPush f (afterInputs f s) →
    (operand0 f s = 0x0000#16 ∧ operand1 f s = 0x0000#16 →
      exec (.cpuid f) s = .next (delivered f 0x0000#16 (afterInputs f s))) ∧
    (¬(operand0 f s = 0x0000#16 ∧ operand1 f s = 0x0000#16) → exec (.cpuid f) s = .fault .cpuidInput)

/-- R162: HALT completes with `halted = 1`; its output is a fresh undefined value (decisions D13 and D14, logs 6 and
20), whatever that value is. -/
def Obligations.HaltResult : Prop :=
  ∀ (f : Fields) (s : State), Executes f s → CanPush f (afterInputs f s) →
    exec (.halt f) s =
      .next (delivered f (Config.freeWord s.draws)
        { afterInputs f s with halted := true, draws := s.draws + 1 })

/-- R163: FRGET gives FR with the bits of input1 as 0. -/
def Obligations.FrgetResult : Prop :=
  ∀ (f : Fields) (s : State), Executes f s → CanPush f (afterInputs f s) →
    encodeWord (.frget f) = opcodeWord 0b001010#6 f ∧
    exec (.frget f) s = .next (delivered f (s.fr &&& ~~~(operand1 f s)) (afterInputs f s))

/-- R164, R123: FRSET takes from input0 the bits that input1 has as 0, keeps the rest; the output is the old FR; a 1 in
a reserved bit of the new FR is a fault (R41, decision D6, log 15). -/
def Obligations.FrsetResult : Prop :=
  ∀ (f : Fields) (s : State) (new : Word), Executes f s → CanPush f (afterInputs f s) →
    new = (operand0 f s &&& ~~~(operand1 f s)) ||| (s.fr &&& operand1 f s) →
    (new &&& reservedFlags s.cfg.variant = 0x0000#16 →
      exec (.frset f) s = .next (delivered f s.fr { afterInputs f s with fr := new })) ∧
    (new &&& reservedFlags s.cfg.variant ≠ 0x0000#16 → exec (.frset f) s = .fault .reservedFlagBit)

/-- R165, R166: BPGET gives BP; BPSET stores input0 and gives the old BP, and BP is defined from then on (R39). That all
16 bits, bit 0 included, are stored and given back is a choice (R40, decision D6; log 16). While BP is undefined R39 lets
a model fault or draw at a read of its value; that this one draws, a value of its own for each read, whatever it is, is a
choice (log 3). -/
def Obligations.BpResults : Prop :=
  ∀ (f : Fields) (s : State), Executes f s → CanPush f (afterInputs f s) →
    (s.bpUndefined = false →
      exec (.bpget f) s = .next (delivered f s.bp (afterInputs f s)) ∧
      exec (.bpset f) s = .next (delivered f s.bp { afterInputs f s with bp := operand0 f s })) ∧
    (s.bpUndefined = true →
      exec (.bpget f) s =
        .next (delivered f (Config.freeWord s.draws) { afterInputs f s with draws := s.draws + 1 }) ∧
      exec (.bpset f) s =
        .next (delivered f (Config.freeWord s.draws)
          { afterInputs f s with bp := operand0 f s, bpUndefined := false, draws := s.draws + 1 }))

/-- R167, R168: SPGET gives SP; SPSET stores input0 in SP and gives the old SP, and SP is defined from then on (R39); its
push goes through the NEW SP (R120), so that one must be even if it pushes. That both give SP as it is after the input
stage is a choice (decision D4; log 23); that all 16 bits, bit 0 included, are stored and given back is one (R40, decision
D6; log 16). While SP is undefined R39 lets a model fault or draw at a read of its value; that this one draws, a value of
its own for each read, whatever it is, is a choice (log 3). -/
def Obligations.SpResults : Prop :=
  ∀ (f : Fields) (s : State), Executes f s →
    (s.spUndefined = false →
      (CanPush f (afterInputs f s) →
        exec (.spget f) s = .next (delivered f (spAfterInputs f s) (afterInputs f s))) ∧
      (∀ t : State, t = { afterInputs f s with sp := operand0 f s } → CanPush f t →
        exec (.spset f) s = .next (delivered f (spAfterInputs f s) t))) ∧
    (s.spUndefined = true →
      (CanPush f (afterInputs f s) →
        exec (.spget f) s =
          .next (delivered f (Config.freeWord s.draws) { afterInputs f s with draws := s.draws + 1 })) ∧
      (∀ t : State, t = { afterInputs f s with sp := operand0 f s, spUndefined := false, draws := s.draws + 1 } →
        CanPush f t → exec (.spset f) s = .next (delivered f (Config.freeWord s.draws) t)))

/-! ### Arithmetic -/

/-- R181: ADD, with C written whatever `flg` and CE are, and Z and N after it. -/
def Obligations.AddResult : Prop :=
  ∀ (f : Fields) (s : State) (sum : Nat), Executes f s → CanPush f (afterInputs f s) →
    sum = (operand0 f s).toNat + (operand1 f s).toNat
        + (if s.fr.getLsbD 2 = true ∧ s.fr.getLsbD 3 = true then 1 else 0) →
    encodeWord (.add f) = opcodeWord 0b010000#6 f ∧
    exec (.add f) s =
      .next (delivered f (BitVec.ofNat 16 sum)
        { afterInputs f s with fr := withC s.fr (decide (65536 ≤ sum)) })

/-- R182: SUB; C is the borrow, the reading the spec derives in that rule. -/
def Obligations.SubResult : Prop :=
  ∀ (f : Fields) (s : State) (borrow : Nat), Executes f s → CanPush f (afterInputs f s) →
    borrow = (if s.fr.getLsbD 2 = true ∧ s.fr.getLsbD 3 = true then 1 else 0) →
    exec (.sub f) s =
      .next (delivered f (operand0 f s - operand1 f s - BitVec.ofNat 16 borrow)
        { afterInputs f s with
          fr := withC s.fr (decide ((operand0 f s).toNat < (operand1 f s).toNat + borrow)) })

/-- R183 with parameter `MUL_CARRY` (decision D9, log 10): the output is the low word of the unsigned and of the signed
product alike; C is set if the 32-bit product the parameter names has a bit in its upper half. -/
def Obligations.MulResult : Prop :=
  ∀ (f : Fields) (s : State), Executes f s → CanPush f (afterInputs f s) →
    ∃ carry : Bool,
      exec (.mul f) s =
        .next (delivered f (operand0 f s * operand1 f s) { afterInputs f s with fr := withC s.fr carry }) ∧
      operand0 f s * operand1 f s = BitVec.ofInt 16 ((operand0 f s).toInt * (operand1 f s).toInt) ∧
      (s.cfg.mulCarry = .unsigned →
        (carry = true ↔ 65536 ≤ (operand0 f s).toNat * (operand1 f s).toNat)) ∧
      (s.cfg.mulCarry = .signed →
        (carry = true ↔ (operand0 f s).toInt * (operand1 f s).toInt < 0 ∨
          65536 ≤ (operand0 f s).toInt * (operand1 f s).toInt))

/-- R184, R185, R186 with parameters `DIV_ROUNDING` (decision D10, log 8) and `DIV_OVERFLOW` (decision D11, log 9): DIV
and MOD by a divisor that is not 0. -/
def Obligations.DivModResults : Prop :=
  ∀ (f : Fields) (s : State) (q r : Word), Executes f s → CanPush f (afterInputs f s) →
    operand1 f s ≠ 0x0000#16 →
    (if operand0 f s = 0x8000#16 ∧ operand1 f s = 0xFFFF#16 then
        q = s.cfg.divOverflowQuotient ∧ r = s.cfg.divOverflowRemainder
      else match s.cfg.divRounding with
        | .truncate => q = BitVec.ofInt 16 ((operand0 f s).toInt.tdiv (operand1 f s).toInt) ∧
            r = BitVec.ofInt 16 ((operand0 f s).toInt.tmod (operand1 f s).toInt)
        | .floor => q = BitVec.ofInt 16 ((operand0 f s).toInt.fdiv (operand1 f s).toInt) ∧
            r = BitVec.ofInt 16 ((operand0 f s).toInt.fmod (operand1 f s).toInt)) →
    exec (.div f) s = .next (delivered f q (afterInputs f s)) ∧
    exec (.mod f) s = .next (delivered f r (afterInputs f s))

/-- R188 (e): the quotient and remainder words satisfy the division law exactly, for either rounding, for a divisor
that is not 0 outside the overflow pair. -/
def Obligations.DivisionLaw : Prop :=
  ∀ (c : Config) (a b : Word), b ≠ 0x0000#16 → ¬(a = 0x8000#16 ∧ b = 0xFFFF#16) →
    (divQuotient c a b).toInt * b.toInt + (modRemainder c a b).toInt = a.toInt ∧
    |(modRemainder c a b).toInt| < |b.toInt|

/-- R187: DIV and MOD by 0 complete with a fresh undefined output (decision D12, log 7), whatever that value is; on a
Mark II with FR[4] = 1 they set IR[4], otherwise they raise nothing. -/
def Obligations.DivisionByZero : Prop :=
  ∀ (f : Fields) (s : State), Executes f s → CanPush f (afterInputs f s) → operand1 f s = 0x0000#16 →
    ∀ t : State,
      t = { afterInputs f s with
        draws := s.draws + 1
        ir := if s.cfg.variant = .markII ∧ s.fr.getLsbD 4 = true then s.ir ||| 0x0010#16 else s.ir } →
      exec (.div f) s = .next (delivered f (Config.freeWord s.draws) t) ∧
      exec (.mod f) s = .next (delivered f (Config.freeWord s.draws) t)

/-! ### Logic, shifts, rotates -/

/-- R201 to R204. -/
def Obligations.LogicResults : Prop :=
  ∀ (f : Fields) (s : State), Executes f s → CanPush f (afterInputs f s) →
    (encodeWord (.and f) = opcodeWord 0b010101#6 f ∧ encodeWord (.or f) = opcodeWord 0b010110#6 f ∧
      encodeWord (.xor f) = opcodeWord 0b010111#6 f ∧ encodeWord (.not f) = opcodeWord 0b011000#6 f) ∧
    exec (.and f) s = .next (delivered f (operand0 f s &&& operand1 f s) (afterInputs f s)) ∧
    exec (.or f) s = .next (delivered f (operand0 f s ||| operand1 f s) (afterInputs f s)) ∧
    exec (.xor f) s = .next (delivered f (operand0 f s ^^^ operand1 f s) (afterInputs f s)) ∧
    exec (.not f) s = .next (delivered f (0xFFFF#16 ^^^ operand0 f s) (afterInputs f s))

/-- R205, R208: SIGNEXT is the sign extension of the low byte; BSWAP exchanges the bytes. BSWAP rests on the meaning of
`concat`, which R200 derives from the command names and the document does not define (DEDUCED, log 38). -/
def Obligations.ByteResults : Prop :=
  ∀ (f : Fields) (s : State), Executes f s → CanPush f (afterInputs f s) →
    (encodeWord (.signext f) = opcodeWord 0b011001#6 f ∧ encodeWord (.bswap f) = opcodeWord 0b011100#6 f) ∧
    exec (.signext f) s =
      .next (delivered f (((operand0 f s).extractLsb' 0 8).signExtend 16) (afterInputs f s)) ∧
    exec (.bswap f) s =
      .next (delivered f (((operand0 f s &&& 0x00FF#16) <<< 8) ||| (operand0 f s >>> 8)) (afterInputs f s))

/-- R206, R207, R209 to R211: ROL, ROR, ASR, LSL and LSR by one position, C neither read nor written. Their directions
rest on the meaning of `concat`, which R200 derives from the command names and the document does not define (DEDUCED,
log 38). -/
def Obligations.ShiftResults : Prop :=
  ∀ (f : Fields) (s : State), Executes f s → CanPush f (afterInputs f s) →
    (encodeWord (.rol f) = opcodeWord 0b011010#6 f ∧ encodeWord (.ror f) = opcodeWord 0b011011#6 f ∧
      encodeWord (.asr f) = opcodeWord 0b011101#6 f ∧ encodeWord (.lsl f) = opcodeWord 0b011110#6 f ∧
      encodeWord (.lsr f) = opcodeWord 0b011111#6 f) ∧
    exec (.rol f) s = .next (delivered f ((operand0 f s).rotateLeft 1) (afterInputs f s)) ∧
    exec (.ror f) s = .next (delivered f ((operand0 f s).rotateRight 1) (afterInputs f s)) ∧
    exec (.asr f) s = .next (delivered f ((operand0 f s).sshiftRight 1) (afterInputs f s)) ∧
    exec (.lsl f) s = .next (delivered f (operand0 f s <<< 1) (afterInputs f s)) ∧
    exec (.lsr f) s = .next (delivered f (operand0 f s >>> 1) (afterInputs f s))

/-! ### Control -/

/-- R221, R222: SETIP and ADDIP load IP and set the bits of input1 in FR; the output is the address of the next
instruction (decision D4, log 23), pushed as the link of a call; odd targets are stored (decision D6, log 16). If that
would leave a 1 in a reserved bit of FR they fault (R41, decision D6, log 15). -/
def Obligations.JumpResults : Prop :=
  ∀ (f : Fields) (s : State), Executes f s → CanPush f (afterInputs f s) →
    ((s.fr ||| operand1 f s) &&& reservedFlags s.cfg.variant = 0x0000#16 →
      exec (.setip f) s =
        .next (delivered f (nextIp f s)
          { afterInputs f s with ip := operand0 f s, ipUndefined := false, fr := s.fr ||| operand1 f s }) ∧
      exec (.addip f) s =
        .next (delivered f (nextIp f s)
          { afterInputs f s with
            ip := nextIp f s + operand0 f s, ipUndefined := false, fr := s.fr ||| operand1 f s })) ∧
    ((s.fr ||| operand1 f s) &&& reservedFlags s.cfg.variant ≠ 0x0000#16 →
      exec (.setip f) s = .fault .reservedFlagBit ∧ exec (.addip f) s = .fault .reservedFlagBit)

/-- R226: on a Mark II INTR sets the bits of input0 in IR and changes nothing else, and faults if one of them is a
reserved bit (R41, decision D6, log 15); on a Mark II-L an executed INTR faults (decision D2, log 19). -/
def Obligations.IntrResult : Prop :=
  ∀ (f : Fields) (s : State), Executes f s → CanPush f (afterInputs f s) →
    (s.cfg.variant = .markII → operand0 f s &&& 0xFF08#16 = 0x0000#16 →
      exec (.intr f) s =
        .next (delivered f (operand0 f s) { afterInputs f s with ir := s.ir ||| operand0 f s })) ∧
    (s.cfg.variant = .markII → operand0 f s &&& 0xFF08#16 ≠ 0x0000#16 →
      exec (.intr f) s = .fault .reservedInterruptBit) ∧
    (s.cfg.variant = .markIIL → exec (.intr f) s = .fault .intrOnMarkIIL)

/-- R82, R91: a reserved command faults if it is executed, and a word with bit 15 set whatever its other bits are,
through any registers and on any platform (decision D8, log 17). -/
def Obligations.ReservedEncodingsFault : Prop :=
  ∀ (f : Fields) (c : BitVec 6) (w : Word) (s : State),
    (conditionHolds f.cond s.fr = true →
      exec (.reservedCmd1 f) s = .fault .reservedCommand ∧
      exec (.reservedCmd35 f) s = .fault .reservedCommand ∧
      exec (.reservedCmd36to39 c f) s = .fault .reservedCommand ∧
      exec (.reservedCmd40to47 c f) s = .fault .reservedCommand ∧
      exec (.reservedCmd48to63 c f) s = .fault .reservedCommand) ∧
    exec (.reservedBit15 w) s = .fault .reservedBit15

/-! ### What no instruction but the named ones does, on any platform -/

/-- R24, R37, R39: an instruction changes BP only if it is BPSET, makes SP defined only if it is SPSET, makes no register
undefined, and leaves the CPU halted only if it is HALT, or if it was the first after a wake-up and a bus error took it
back (R254, decision D17, log 12; decision D14, log 20); none changes a parameter (log 1) or takes an event from the
environment (log 14). Nor does the interrupt phase change BP, whether it takes an interrupt or a reset or none. -/
def Obligations.UntouchedState : Prop :=
  (∀ (s t : State) (taken : Bool), interruptPhase s = .ok taken t → t.bp = s.bp ∧ t.cfg = s.cfg) ∧
  ∀ (i : Instr) (s t : State), exec i s = .next t →
    ((∀ f, i ≠ .bpset f) → t.bp = s.bp ∧ t.bpUndefined = s.bpUndefined) ∧
    ((∀ f, i ≠ .spset f) → t.spUndefined = s.spUndefined) ∧
    (t.bpUndefined = true → s.bpUndefined = true) ∧ (t.spUndefined = true → s.spUndefined = true) ∧
    (t.ipUndefined = true → s.ipUndefined = true) ∧
    ((∀ f, i ≠ .halt f) → t.halted = false ∨
      (s.cfg.variant = .markII ∧ t = { s with ir := s.ir ||| 0x0004#16, draws := t.draws })) ∧
    t.cfg = s.cfg ∧ t.events = s.events

/-- R30, R31, R32, R122: C is written only by ADD, SUB, MUL, FRSET, SETIP and ADDIP; CE and the enable bits only by the
last three; and without `flg` no other command changes FR at all. -/
def Obligations.FlagWriters : Prop :=
  ∀ (i : Instr) (s t : State), exec i s = .next t →
    (∀ f, i ≠ .frset f ∧ i ≠ .setip f ∧ i ≠ .addip f) →
    (∀ k, 3 ≤ k → t.fr.getLsbD k = s.fr.getLsbD k) ∧
    ((∀ f, i ≠ .add f ∧ i ≠ .sub f ∧ i ≠ .mul f) →
      t.fr.getLsbD 2 = s.fr.getLsbD 2 ∧ (∀ f, i.fields? = some f → f.flg = false → t.fr = s.fr))

/-- R26, R220: an instruction other than SETIP and ADDIP leaves IP at the next instruction in memory; or a bus error
took the whole instruction back, which leaves IP at it and BUS triggered (R254 under its decision D17, log 12). -/
def Obligations.IpIsSequential : Prop :=
  ∀ (i : Instr) (f : Fields) (s t : State), i.fields? = some f → (∀ g, i ≠ .setip g ∧ i ≠ .addip g) →
    exec i s = .next t →
    t.ip = nextIp f s ∨ (s.cfg.variant = .markII ∧ t = { s with ir := s.ir ||| 0x0004#16, draws := t.draws })

/-- R36, R243: an instruction changes IR only if it is INTR (bits of its input), DIV or MOD (bit 4), or if it met a bus
error (bit 2); none clears a bit of IR. That a bus error takes everything else back is R254 under its decision D17
(log 12). -/
def Obligations.InterruptRegisterWriters : Prop :=
  ∀ (i : Instr) (s t : State), exec i s = .next t →
    (∀ k, s.ir.getLsbD k = true → t.ir.getLsbD k = true) ∧
    ((∀ f, i ≠ .intr f) → t.ir = s.ir ∨
      (t.ir = s.ir ||| 0x0010#16 ∧ (∃ f, i = .div f ∨ i = .mod f) ∧ s.fr.getLsbD 4 = true) ∨
      (s.cfg.variant = .markII ∧ t = { s with ir := s.ir ||| 0x0004#16, draws := t.draws }))

/-- R22, R23: an instruction other than SPSET raises SP by 2 for each pop input and lowers it by 2 for a pushed output,
if it is executed; ignored, or taken back by a bus error (R254 under its decision D17, log 12), it leaves SP as it
was. -/
def Obligations.StackPointerMoves : Prop :=
  ∀ (i : Instr) (f : Fields) (s t : State), i.fields? = some f → (∀ g, i ≠ .spset g) → exec i s = .next t →
    (conditionHolds f.cond s.fr = false ∧ t.sp = s.sp) ∨
    (conditionHolds f.cond s.fr = true ∧
      t.sp = spAfterInputs f s - (if f.out = true then 2#16 else 0#16)) ∨
    (s.cfg.variant = .markII ∧ t = { s with ir := s.ir ||| 0x0004#16, draws := t.draws })

/-- R59, R57: an instruction stores nowhere but at `storeAddresses`: the command's own store of SET, STORE8 and STORE16,
and the word its output stage pushes; code memory is never stored to (R52). -/
def Obligations.StoresOnlyThere : Prop :=
  ∀ (i : Instr) (f : Fields) (s t : State), i.fields? = some f → exec i s = .next t →
    (∀ a, a ∉ storeAddresses i f s → t.mem.readByte a = s.mem.readByte a) ∧ t.code = s.code

/-! ### The step -/

/-- R113: when nothing is triggered or signalled, the CPU is not halted, and the word at an even IP is the opcode word
of a well-formed instruction, the step is that instruction, run from this very state (one entry of the event list
passes: log 14). IP still points at the opcode word there: `exec` moves it past the instruction. -/
def Obligations.StepRunsDecoded : Prop :=
  ∀ (i : Instr) (s : State), s.Plain → s.NoEvent → s.ir = 0x0000#16 → s.halted = false → s.FetchUsable →
    i.WellFormed = true → s.fetchMemory.readWord s.ip = encodeWord i →
    step s = exec i { s with events := s.events.tail }

/-- R113, R126: after any interrupt phase that leaves the CPU running or wakes it, on a plain platform, the step goes on
with the instruction at the new IP, of a CPU that is not halted any more (R127, R260, decision D14; log 20). -/
def Obligations.StepAfterInterrupts : Prop :=
  ∀ (i : Instr) (s t : State) (taken : Bool), interruptPhase s = .ok taken t → (t.halted = false ∨ taken = true) →
    t.Plain → t.FetchUsable → i.WellFormed = true → t.fetchMemory.readWord t.ip = encodeWord i →
    step s = exec i { t with halted := false }

/-- R127 with the reading of HALT that the spec decides in D14 (log 20): a halted CPU whose interrupt phase takes
nothing fetches nothing and changes nothing but IR, emptied of masked interrupts, on a Mark II; on a Mark II-L only
reset ends the halted state. -/
def Obligations.HaltedStep : Prop :=
  ∀ s : State, s.halted = true →
    (s.cfg.variant = .markII → (∀ k, k < 16 → (externalEvents s).ir.getLsbD k = true → 4 ≤ k ∧ s.fr.getLsbD k = false) →
      step s = .next { s with ir := 0x0000#16, events := s.events.tail }) ∧
    (s.cfg.variant = .markIIL → (eventsNow s).rst = false →
      step s = .next { s with events := s.events.tail })

/-- Every step keeps both memories canonical (log 4) and the reserved bits of FR and IR at 0 (R41; log 15), on every
platform and from every state of this kind. -/
def Obligations.StepKeepsInv : Prop :=
  ∀ s t : State, s.Inv → step s = .next t → t.Inv

/-- R38: FR, IR and `halted` at power-on of either variant, and that SP, BP and IP are undefined; and both power-on
states have the invariant of `StepKeepsInv`. -/
def Obligations.PowerOnStates : Prop :=
  (State.reset.cfg.variant = .markII ∧ State.reset.fr = 0x0000#16 ∧ State.reset.ir = 0x0001#16 ∧
    State.reset.halted = false ∧ State.reset.spUndefined = true ∧ State.reset.bpUndefined = true ∧
    State.reset.ipUndefined = true ∧ State.reset.Inv) ∧
  (State.resetMarkIIL.cfg.variant = .markIIL ∧ State.resetMarkIIL.fr = 0x0000#16 ∧
    State.resetMarkIIL.halted = false ∧ State.resetMarkIIL.spUndefined = true ∧
    State.resetMarkIIL.bpUndefined = true ∧ State.resetMarkIIL.ipUndefined = true ∧ State.resetMarkIIL.Inv)

/-! ### Interrupts and reset -/

/-- R246, R245: each signalled pin raises its interrupt, IRQ only while FR[7] = 1; nothing else changes but the list of
coming events (log 14). -/
def Obligations.EventsRaise : Prop :=
  ∀ s : State, s.cfg.variant = .markII →
    externalEvents s = { s with
      events := s.events.tail
      ir := s.ir ||| (if (eventsNow s).rst = true then 0x0001#16 else 0x0000#16)
          ||| (if (eventsNow s).nmi = true then 0x0002#16 else 0x0000#16)
          ||| (if (eventsNow s).irq = true ∧ s.fr.getLsbD 7 = true then 0x0080#16 else 0x0000#16) }

/-- R247: a triggered reset is all the interrupt phase does: IP from MEM16[0x0000], FR and IR cleared, `halted` cleared
(decision D14, log 20), nothing pushed, memory unchanged. SP and BP become undefined again (decision D28, log 3), their
registers untouched (R24). -/
def Obligations.ResetSequence : Prop :=
  ∀ s : State, s.cfg.variant = .markII → s.Plain → (externalEvents s).ir.getLsbD 0 = true →
    interruptPhase s = .ok true { s with
      ip := s.fetchMemory.readWord 0x0000#16, fr := 0x0000#16, ir := 0x0000#16, halted := false
      spUndefined := true, bpUndefined := true, ipUndefined := false
      events := s.events.tail }

/-- R292: on a Mark II-L the RST pin sets IP and FR to 0x0000, ends the halted state (decision D14, log 20), and makes
SP and BP undefined again (decision D28, log 3), their registers untouched (R24); phase A does nothing else, and no other
pin does anything (log 30). -/
def Obligations.MarkIILReset : Prop :=
  ∀ s : State, s.cfg.variant = .markIIL →
    ((eventsNow s).rst = true →
      interruptPhase s = .ok false { s with
        ip := 0x0000#16, fr := 0x0000#16, halted := false
        spUndefined := true, bpUndefined := true, ipUndefined := false
        events := s.events.tail }) ∧
    ((eventsNow s).rst = false → interruptPhase s = .ok false { s with events := s.events.tail })

/-- R257: entering interrupt b leaves the return address at the new SP and the word `1 << b` above it, IP at the
handler, FR[b] cleared for b of 4 to 7, and changes nothing else. The handler's address is read after the pushes (R66).
R268: through an SP that is undefined or odd it faults, on every platform (decision D18; log 21). -/
def Obligations.InterruptEntry : Prop :=
  (∀ (b : Nat) (s : State), s.spUndefined = true → enterInterrupt b s = .fault (.undefinedAddress .sp)) ∧
  (∀ (b : Nat) (s : State), s.spUndefined = false → ¬ IsEven s.sp →
    enterInterrupt b s = .fault (.misaligned (s.sp - 2#16))) ∧
  ∀ (b : Nat) (s : State), 1 ≤ b → b ≤ 7 → s.Plain → s.mem.wf = true → s.StackUsable →
    ∃ t : State, enterInterrupt b s = .ok () t ∧
      t = { s with
        sp := s.sp - 4#16
        ip := t.fetchMemory.readWord (BitVec.ofNat 16 (2 * b))
        ipUndefined := false
        fr := t.fr
        mem := t.mem } ∧
      t.mem.readWord t.sp = s.ip ∧ t.mem.readWord (t.sp + 2#16) = BitVec.ofNat 16 (2 ^ b) ∧
      (∀ x, x ∉ wordAddresses (s.sp - 2#16) → x ∉ wordAddresses (s.sp - 4#16) →
        t.mem.readByte x = s.mem.readByte x) ∧
      (∀ k, t.fr.getLsbD k = (s.fr.getLsbD k && !(decide (4 ≤ b) && decide (k = b))))

/-- R256, R265: after the interrupt phase of a Mark II IR is 0x0000, always, and FR has gained no bit. If every
triggered interrupt is masked they are lost: the phase takes none and leaves everything but IR and the event list as it
was. -/
def Obligations.PhaseEmptiesIr : Prop :=
  ∀ s : State, s.cfg.variant = .markII →
    (∀ (t : State) (taken : Bool), interruptPhase s = .ok taken t →
      t.ir = 0x0000#16 ∧ (∀ k, t.fr.getLsbD k = true → s.fr.getLsbD k = true)) ∧
    ((∀ k, k < 16 → (externalEvents s).ir.getLsbD k = true → 4 ≤ k ∧ s.fr.getLsbD k = false) →
      interruptPhase s = .ok false { s with ir := 0x0000#16, events := s.events.tail })

/-- R258: when interrupts are triggered and no reset, every unmasked one is entered in the same phase, from the highest
number down, each from the state the entry before it left, so that it pushes the IP that entry set (`InterruptEntry` says
what one entry does); with one unmasked interrupt the phase is that one entry, IR emptied. The handler with the lowest
number among the unmasked ones runs first. Through an undefined SP a phase that enters one faults (R268, decision D18;
log 21). -/
def Obligations.LowestInterruptFirst : Prop :=
  ∀ (s u : State), s.cfg.variant = .markII → (externalEvents s).ir.getLsbD 0 = false →
    u = { externalEvents s with ir := 0x0000#16 } →
    (s.Plain → s.StackUsable →
      (∃ t : State, enterAll (dueInterrupts (externalEvents s)) u = .ok () t ∧
        interruptPhase s = .ok (!(dueInterrupts (externalEvents s)).isEmpty) t ∧
        t.sp = s.sp - BitVec.ofNat 16 (4 * (dueInterrupts (externalEvents s)).length)) ∧
      (∀ b : Nat, dueInterrupts (externalEvents s) = [b] →
        interruptPhase s = (enterInterrupt b u).bind fun _ t => .ok true t) ∧
      (∀ b : Nat, 1 ≤ b → b ≤ 7 →
        (externalEvents s).ir.getLsbD b = true → (b < 4 ∨ s.fr.getLsbD b = true) →
        (∀ k, 1 ≤ k → k < b → (externalEvents s).ir.getLsbD k = true → 4 ≤ k ∧ s.fr.getLsbD k = false) →
        ∃ t : State, interruptPhase s = .ok true t ∧
          t.ip = t.fetchMemory.readWord (BitVec.ofNat 16 (2 * b)))) ∧
    (s.spUndefined = true → dueInterrupts (externalEvents s) ≠ [] →
      interruptPhase s = .fault (.undefinedAddress .sp))

/-- R261, R264: `setip [i0:pop] [i1:pop]` at the start of the handler undoes the entry of interrupt b: IP and SP are
back, and FR is what it was with bit b set (for b of 4 to 7 the enable bit that entry cleared); a CPU that the interrupt
woke is not halted any more (decision D14, log 20). -/
def Obligations.ReturnUndoesEntry : Prop :=
  ∀ (b : Nat) (s t : State), 1 ≤ b → b ≤ 7 → s.Plain → s.Inv → s.cfg.variant = .markII → s.StackUsable →
    (4 ≤ b → s.fr.getLsbD b = true) → enterInterrupt b s = .ok () t →
    ∃ u : State, exec (.setip ⟨.always, .pop, .pop, false, false⟩) t = .next u ∧
      u = { t with ip := s.ip, sp := s.sp, fr := s.fr ||| BitVec.ofNat 16 (2 ^ b), halted := false } ∧
      (4 ≤ b → u.fr = s.fr)

/-- R254 on an access of a command body and on the push of the output stage, under the spec's decision D17 (log 12): GET,
SET, LOAD16, STORE16, LOAD8 and STORE8 whose own access is answered with BUS change nothing but IR[2] (values drawn for
earlier device reads stay drawn), and so does every defined command whose push is, if it has a next state; COPY always
has one. `halted` too is what it was before the instruction, set if the interrupt phase of this step woke the CPU. -/
def Obligations.BusErrorTakesBack : Prop :=
  ∀ (f : Fields) (s u : State) (v : Word × Word) (back : State),
    conditionHolds f.cond s.fr = true → inputStage f (passOpcode s) = .ok v u →
    back = { s with ir := s.ir ||| 0x0004#16, draws := u.draws } →
    (IsEven v.1 → u.busSignalled .read 2 v.1 = true → exec (.load16 f) s = .next back) ∧
    (u.busSignalled .read 1 v.1 = true → exec (.load8 f) s = .next back) ∧
    (IsEven v.2 → u.busSignalled .write 2 v.2 = true → exec (.store16 f) s = .next back) ∧
    (u.busSignalled .write 1 v.2 = true → exec (.store8 f) s = .next back) ∧
    (u.BaseUsable →
      (u.busSignalled .read 2 (indexedAddress u.bp v.1) = true → exec (.get f) s = .next back) ∧
      (u.busSignalled .write 2 (indexedAddress u.bp v.1) = true → exec (.set f) s = .next back)) ∧
    (f.out = true →
      (u.StackUsable → u.busSignalled .write 2 (u.sp - 2#16) = true → exec (.copy f) s = .next back) ∧
      (∀ (i : Instr) (t : State), i.isDefined = true → i.fields? = some f →
        u.busSignalled .write 2 (pushSp i v.1 u - 2#16) = true → exec i s = .next t →
        t = { s with ir := s.ir ||| 0x0004#16, draws := t.draws }))

/-- R254 on the fetches and reads of the frame (decision D17, log 12): an instruction whose input stage meets a bus
error, and a step whose opcode fetch does, change nothing after phase A but IR[2] (and the count of drawn values); after
a phase that woke the CPU `halted` is still set. -/
def Obligations.BusErrorInFrame : Prop :=
  (∀ (i : Instr) (f : Fields) (s u : State), i.isDefined = true → i.fields? = some f →
    conditionHolds f.cond s.fr = true → inputStage f (passOpcode s) = .busError u →
    exec i s = .next { s with ir := s.ir ||| 0x0004#16, draws := u.draws }) ∧
  (∀ (s t : State) (taken : Bool), interruptPhase s = .ok taken t → (t.halted = false ∨ taken = true) →
    t.FetchUsable → t.busSignalled .fetch 2 t.ip = true → step s = .next { t with ir := t.ir ||| 0x0004#16 })

end Obligations
end

