-- ==== Sys2Proof/Laws/Memory.lean ====
section
/-! SUPPORT. Byte memory: read after write, the canonical form kept by every write, and that equal contents are equal
data. -/

namespace Sys2Proof.Machine

theorem readByte_of_lt {m : Memory} {lo a : Nat} (h : m.wfFrom lo = true) (ha : a < lo) :
    m.readByte a = unlistedByte := by
  induction m generalizing lo with
  | nil => rfl
  | cons c rest ih =>
    obtain ⟨k, b⟩ := c
    simp only [Memory.wfFrom, Bool.and_eq_true, decide_eq_true_eq] at h
    have hne : ¬ k = a := by omega
    simp only [Memory.readByte, hne, if_false]
    exact ih h.2 (by omega)

/-- A read of the byte just written gives it, on canonical memories. -/
theorem readByte_writeByte_same {m : Memory} {lo : Nat} (h : m.wfFrom lo = true) (a : Nat) (v : Byte) :
    (m.writeByte a v).readByte a = v := by
  induction m generalizing lo with
  | nil => by_cases hv : v = unlistedByte <;> simp [Memory.writeByte, Memory.readByte, hv]
  | cons c rest ih =>
    obtain ⟨k, b⟩ := c
    simp only [Memory.wfFrom, Bool.and_eq_true, decide_eq_true_eq] at h
    simp only [Memory.writeByte]
    split_ifs with h1 h2 h3 h4
    · have hne : ¬ k = a := by omega
      simp only [Memory.readByte, hne, if_false]
      exact ih h.2
    · subst h2
      rw [h3]
      exact readByte_of_lt h.2 (by omega)
    · simp [Memory.readByte]
    · have hne : ¬ k = a := by omega
      simp only [Memory.readByte, hne, if_false, h4]
      exact readByte_of_lt h.2 (by omega)
    · simp [Memory.readByte]

/-- A write leaves every other byte alone, on any list. -/
theorem readByte_writeByte_other (m : Memory) {a x : Nat} (hx : x ≠ a) (v : Byte) :
    (m.writeByte a v).readByte x = m.readByte x := by
  induction m with
  | nil => by_cases hv : v = unlistedByte <;> simp [Memory.writeByte, Memory.readByte, hv, Ne.symm hx]
  | cons c rest ih =>
    obtain ⟨k, b⟩ := c
    simp only [Memory.writeByte]
    split_ifs with h1 h2 h3 h4
    · simp only [Memory.readByte, ih]
    · simp [Memory.readByte, h2, Ne.symm hx]
    · simp [Memory.readByte, h2, Ne.symm hx]
    · rfl
    · simp [Memory.readByte, Ne.symm hx]

theorem wfFrom_mono {m : Memory} {lo lo' : Nat} (h : m.wfFrom lo = true) (hle : lo' ≤ lo) : m.wfFrom lo' = true := by
  cases m with
  | nil => rfl
  | cons c rest =>
    obtain ⟨k, b⟩ := c
    simp only [Memory.wfFrom, Bool.and_eq_true, decide_eq_true_eq] at h ⊢
    exact ⟨⟨⟨by omega, h.1.1.2⟩, h.1.2⟩, h.2⟩

theorem wfFrom_writeByte {m : Memory} {lo a : Nat} (h : m.wfFrom lo = true) (hlo : lo ≤ a) (ha : a < 65536) (v : Byte) :
    (m.writeByte a v).wfFrom lo = true := by
  induction m generalizing lo with
  | nil => by_cases hv : v = unlistedByte <;> simp [Memory.writeByte, Memory.wfFrom, hv, hlo, ha]
  | cons c rest ih =>
    obtain ⟨k, b⟩ := c
    have h' := h
    simp only [Memory.wfFrom, Bool.and_eq_true, decide_eq_true_eq] at h
    simp only [Memory.writeByte]
    split_ifs with h1 h2 h3 h4
    · simp only [Memory.wfFrom, Bool.and_eq_true, decide_eq_true_eq]
      exact ⟨h.1, ih h.2 (by omega)⟩
    · exact wfFrom_mono h.2 (by omega)
    · simp only [Memory.wfFrom, Bool.and_eq_true, decide_eq_true_eq]
      exact ⟨⟨⟨hlo, ha⟩, h3⟩, h2 ▸ h.2⟩
    · exact h'
    · simp only [Memory.wfFrom, Bool.and_eq_true, decide_eq_true_eq]
      exact ⟨⟨⟨hlo, ha⟩, h4⟩, ⟨⟨by omega, h.1.1.2⟩, h.1.2⟩, h.2⟩

/-- A byte write below 2^16 keeps the canonical form. -/
theorem wf_writeByte {m : Memory} {a : Nat} (h : m.wf = true) (ha : a < 65536) (v : Byte) :
    (m.writeByte a v).wf = true :=
  wfFrom_writeByte h (Nat.zero_le a) ha v

/-- Storing bytes one after another keeps the canonical form. -/
theorem wf_writeBytes {m : Memory} (h : m.wf = true) (a : Word) (bs : List Byte) : (m.writeBytes a bs).wf = true := by
  induction bs generalizing m a with
  | nil => exact h
  | cons b rest ih => exact ih (wf_writeByte h a.isLt b) _

/-- The memories at power-on are canonical. -/
theorem wf_reset : State.reset.mem.wf = true ∧ State.reset.code.wf = true := ⟨rfl, rfl⟩

/-- The high byte of an even word address is below 2^16 and its own low byte's neighbour (20_memory.md R71). -/
theorem toNat_succ_lt {a : Word} (h : IsEven a) : a.toNat + 1 < 65536 := by
  have hm : a.toNat % 2 = 0 := by
    have := h
    simp only [IsEven, BitVec.getLsbD, Nat.testBit_zero] at this
    simpa using this
  have := a.isLt
  omega

/-- A word write to an even address keeps the canonical form. -/
theorem wf_writeWord {m : Memory} {a : Word} (h : m.wf = true) (ha : IsEven a) (v : Word) :
    (m.writeWord a v).wf = true :=
  wf_writeByte (wf_writeByte h a.isLt _) (toNat_succ_lt ha) _

/-- A word write leaves the bytes outside the word alone. -/
theorem readByte_writeWord_other (m : Memory) (a v : Word) {x : Nat} (h0 : x ≠ a.toNat) (h1 : x ≠ a.toNat + 1) :
    (m.writeWord a v).readByte x = m.readByte x := by
  unfold Memory.writeWord
  rw [readByte_writeByte_other _ h1, readByte_writeByte_other _ h0]

/-- The low byte of a word lies at the lower address (20_memory.md R53). -/
theorem readByte_writeWord_low {m : Memory} (h : m.wf = true) (a v : Word) :
    (m.writeWord a v).readByte a.toNat = v.extractLsb' 0 8 := by
  unfold Memory.writeWord
  rw [readByte_writeByte_other _ (by omega)]
  exact readByte_writeByte_same h _ _

/-- The high byte of a word lies at the higher address (20_memory.md R53). -/
theorem readByte_writeWord_high {m : Memory} (h : m.wf = true) (a v : Word) :
    (m.writeWord a v).readByte (a.toNat + 1) = v.extractLsb' 8 8 := by
  unfold Memory.writeWord
  exact readByte_writeByte_same (wf_writeByte h a.isLt _) _ _

/-- A word is its high byte above its low byte. -/
theorem append_halves (v : Word) : v.extractLsb' 8 8 ++ v.extractLsb' 0 8 = v := by grind

/-- A word just written is read back. -/
theorem readWord_writeWord_same {m : Memory} (h : m.wf = true) (a v : Word) :
    (m.writeWord a v).readWord a = v := by
  unfold Memory.readWord
  rw [readByte_writeWord_low h, readByte_writeWord_high h]
  exact append_halves v

/-- A word write leaves a word at another even address alone. -/
theorem readWord_writeWord_other (m : Memory) {a x : Word} (hx : x ≠ a) (ha : IsEven a) (he : IsEven x) (v : Word) :
    (m.writeWord a v).readWord x = m.readWord x := by
  have par : ∀ y : Word, IsEven y → y.toNat % 2 = 0 := by
    intro y hy
    simp only [IsEven, BitVec.getLsbD, Nat.testBit_zero] at hy
    simpa using hy
  have hne : x.toNat ≠ a.toNat := fun h => hx (BitVec.eq_of_toNat_eq h)
  have pa := par a ha
  have px := par x he
  unfold Memory.readWord
  rw [readByte_writeWord_other _ _ _ (by omega) (by omega), readByte_writeWord_other _ _ _ (by omega) (by omega)]

end Sys2Proof.Machine
end

