-- ==== Sys2Proof/Laws/State.lean ====
section
/-! SUPPORT. One lemma for each field of State after each named update. -/

namespace Sys2Proof.Machine

/-! ### draw -/

@[simp] theorem draw_cfg (s : State) : (draw s).2.cfg = s.cfg := rfl
@[simp] theorem draw_sp (s : State) : (draw s).2.sp = s.sp := rfl
@[simp] theorem draw_bp (s : State) : (draw s).2.bp = s.bp := rfl
@[simp] theorem draw_ip (s : State) : (draw s).2.ip = s.ip := rfl
@[simp] theorem draw_fr (s : State) : (draw s).2.fr = s.fr := rfl
@[simp] theorem draw_ir (s : State) : (draw s).2.ir = s.ir := rfl
@[simp] theorem draw_halted (s : State) : (draw s).2.halted = s.halted := rfl
@[simp] theorem draw_mem (s : State) : (draw s).2.mem = s.mem := rfl
@[simp] theorem draw_code (s : State) : (draw s).2.code = s.code := rfl
@[simp] theorem draw_spUndefined (s : State) : (draw s).2.spUndefined = s.spUndefined := rfl
@[simp] theorem draw_bpUndefined (s : State) : (draw s).2.bpUndefined = s.bpUndefined := rfl
@[simp] theorem draw_ipUndefined (s : State) : (draw s).2.ipUndefined = s.ipUndefined := rfl
@[simp] theorem draw_events (s : State) : (draw s).2.events = s.events := rfl
@[simp] theorem draw_draws (s : State) : (draw s).2.draws = s.draws + 1 := rfl

/-! ### writeByteTo -/

@[simp] theorem writeByteTo_cfg (a : Nat) (v : Byte) (s : State) : (writeByteTo a v s).cfg = s.cfg := by unfold writeByteTo; split <;> rfl
@[simp] theorem writeByteTo_sp (a : Nat) (v : Byte) (s : State) : (writeByteTo a v s).sp = s.sp := by unfold writeByteTo; split <;> rfl
@[simp] theorem writeByteTo_bp (a : Nat) (v : Byte) (s : State) : (writeByteTo a v s).bp = s.bp := by unfold writeByteTo; split <;> rfl
@[simp] theorem writeByteTo_ip (a : Nat) (v : Byte) (s : State) : (writeByteTo a v s).ip = s.ip := by unfold writeByteTo; split <;> rfl
@[simp] theorem writeByteTo_fr (a : Nat) (v : Byte) (s : State) : (writeByteTo a v s).fr = s.fr := by unfold writeByteTo; split <;> rfl
@[simp] theorem writeByteTo_ir (a : Nat) (v : Byte) (s : State) : (writeByteTo a v s).ir = s.ir := by unfold writeByteTo; split <;> rfl
@[simp] theorem writeByteTo_halted (a : Nat) (v : Byte) (s : State) : (writeByteTo a v s).halted = s.halted := by unfold writeByteTo; split <;> rfl
@[simp] theorem writeByteTo_mem (a : Nat) (v : Byte) (s : State) : (writeByteTo a v s).mem = if s.isDevice a then s.mem else s.mem.writeByte a v := by unfold writeByteTo; split <;> rfl
@[simp] theorem writeByteTo_code (a : Nat) (v : Byte) (s : State) : (writeByteTo a v s).code = s.code := by unfold writeByteTo; split <;> rfl
@[simp] theorem writeByteTo_spUndefined (a : Nat) (v : Byte) (s : State) : (writeByteTo a v s).spUndefined = s.spUndefined := by unfold writeByteTo; split <;> rfl
@[simp] theorem writeByteTo_bpUndefined (a : Nat) (v : Byte) (s : State) : (writeByteTo a v s).bpUndefined = s.bpUndefined := by unfold writeByteTo; split <;> rfl
@[simp] theorem writeByteTo_ipUndefined (a : Nat) (v : Byte) (s : State) : (writeByteTo a v s).ipUndefined = s.ipUndefined := by unfold writeByteTo; split <;> rfl
@[simp] theorem writeByteTo_events (a : Nat) (v : Byte) (s : State) : (writeByteTo a v s).events = s.events := by unfold writeByteTo; split <;> rfl
@[simp] theorem writeByteTo_draws (a : Nat) (v : Byte) (s : State) : (writeByteTo a v s).draws = s.draws := by unfold writeByteTo; split <;> rfl

/-! ### raiseInterrupt -/

@[simp] theorem raiseInterrupt_cfg (k : Nat) (s : State) : (raiseInterrupt k s).cfg = s.cfg := by unfold raiseInterrupt; split <;> rfl
@[simp] theorem raiseInterrupt_sp (k : Nat) (s : State) : (raiseInterrupt k s).sp = s.sp := by unfold raiseInterrupt; split <;> rfl
@[simp] theorem raiseInterrupt_bp (k : Nat) (s : State) : (raiseInterrupt k s).bp = s.bp := by unfold raiseInterrupt; split <;> rfl
@[simp] theorem raiseInterrupt_ip (k : Nat) (s : State) : (raiseInterrupt k s).ip = s.ip := by unfold raiseInterrupt; split <;> rfl
@[simp] theorem raiseInterrupt_fr (k : Nat) (s : State) : (raiseInterrupt k s).fr = s.fr := by unfold raiseInterrupt; split <;> rfl
@[simp] theorem raiseInterrupt_ir (k : Nat) (s : State) : (raiseInterrupt k s).ir = if s.cfg.variant = .markII ∧ (k < 4 ∨ s.fr.getLsbD k = true) then s.ir ||| bitMask k else s.ir := by unfold raiseInterrupt; split <;> rfl
@[simp] theorem raiseInterrupt_halted (k : Nat) (s : State) : (raiseInterrupt k s).halted = s.halted := by unfold raiseInterrupt; split <;> rfl
@[simp] theorem raiseInterrupt_mem (k : Nat) (s : State) : (raiseInterrupt k s).mem = s.mem := by unfold raiseInterrupt; split <;> rfl
@[simp] theorem raiseInterrupt_code (k : Nat) (s : State) : (raiseInterrupt k s).code = s.code := by unfold raiseInterrupt; split <;> rfl
@[simp] theorem raiseInterrupt_spUndefined (k : Nat) (s : State) : (raiseInterrupt k s).spUndefined = s.spUndefined := by unfold raiseInterrupt; split <;> rfl
@[simp] theorem raiseInterrupt_bpUndefined (k : Nat) (s : State) : (raiseInterrupt k s).bpUndefined = s.bpUndefined := by unfold raiseInterrupt; split <;> rfl
@[simp] theorem raiseInterrupt_ipUndefined (k : Nat) (s : State) : (raiseInterrupt k s).ipUndefined = s.ipUndefined := by unfold raiseInterrupt; split <;> rfl
@[simp] theorem raiseInterrupt_events (k : Nat) (s : State) : (raiseInterrupt k s).events = s.events := by unfold raiseInterrupt; split <;> rfl
@[simp] theorem raiseInterrupt_draws (k : Nat) (s : State) : (raiseInterrupt k s).draws = s.draws := by unfold raiseInterrupt; split <;> rfl

/-! ### forgetStackRegisters -/

@[simp] theorem forgetStackRegisters_cfg (s : State) : (forgetStackRegisters s).cfg = s.cfg := rfl
@[simp] theorem forgetStackRegisters_sp (s : State) : (forgetStackRegisters s).sp = s.sp := rfl
@[simp] theorem forgetStackRegisters_bp (s : State) : (forgetStackRegisters s).bp = s.bp := rfl
@[simp] theorem forgetStackRegisters_ip (s : State) : (forgetStackRegisters s).ip = s.ip := rfl
@[simp] theorem forgetStackRegisters_fr (s : State) : (forgetStackRegisters s).fr = s.fr := rfl
@[simp] theorem forgetStackRegisters_ir (s : State) : (forgetStackRegisters s).ir = s.ir := rfl
@[simp] theorem forgetStackRegisters_halted (s : State) : (forgetStackRegisters s).halted = s.halted := rfl
@[simp] theorem forgetStackRegisters_mem (s : State) : (forgetStackRegisters s).mem = s.mem := rfl
@[simp] theorem forgetStackRegisters_code (s : State) : (forgetStackRegisters s).code = s.code := rfl
@[simp] theorem forgetStackRegisters_spUndefined (s : State) : (forgetStackRegisters s).spUndefined = true := rfl
@[simp] theorem forgetStackRegisters_bpUndefined (s : State) : (forgetStackRegisters s).bpUndefined = true := rfl
@[simp] theorem forgetStackRegisters_ipUndefined (s : State) : (forgetStackRegisters s).ipUndefined = s.ipUndefined := rfl
@[simp] theorem forgetStackRegisters_events (s : State) : (forgetStackRegisters s).events = s.events := rfl
@[simp] theorem forgetStackRegisters_draws (s : State) : (forgetStackRegisters s).draws = s.draws := rfl

/-! ### loadIP -/

@[simp] theorem loadIP_cfg (target : Word) (s : State) : (loadIP target s).cfg = s.cfg := rfl
@[simp] theorem loadIP_sp (target : Word) (s : State) : (loadIP target s).sp = s.sp := rfl
@[simp] theorem loadIP_bp (target : Word) (s : State) : (loadIP target s).bp = s.bp := rfl
@[simp] theorem loadIP_ip (target : Word) (s : State) : (loadIP target s).ip = target := rfl
@[simp] theorem loadIP_fr (target : Word) (s : State) : (loadIP target s).fr = s.fr := rfl
@[simp] theorem loadIP_ir (target : Word) (s : State) : (loadIP target s).ir = s.ir := rfl
@[simp] theorem loadIP_halted (target : Word) (s : State) : (loadIP target s).halted = s.halted := rfl
@[simp] theorem loadIP_mem (target : Word) (s : State) : (loadIP target s).mem = s.mem := rfl
@[simp] theorem loadIP_code (target : Word) (s : State) : (loadIP target s).code = s.code := rfl
@[simp] theorem loadIP_spUndefined (target : Word) (s : State) : (loadIP target s).spUndefined = s.spUndefined := rfl
@[simp] theorem loadIP_bpUndefined (target : Word) (s : State) : (loadIP target s).bpUndefined = s.bpUndefined := rfl
@[simp] theorem loadIP_ipUndefined (target : Word) (s : State) : (loadIP target s).ipUndefined = false := rfl
@[simp] theorem loadIP_events (target : Word) (s : State) : (loadIP target s).events = s.events := rfl
@[simp] theorem loadIP_draws (target : Word) (s : State) : (loadIP target s).draws = s.draws := rfl

/-! ### dropEvents -/

@[simp] theorem dropEvents_cfg (s : State) : (dropEvents s).cfg = s.cfg := rfl
@[simp] theorem dropEvents_sp (s : State) : (dropEvents s).sp = s.sp := rfl
@[simp] theorem dropEvents_bp (s : State) : (dropEvents s).bp = s.bp := rfl
@[simp] theorem dropEvents_ip (s : State) : (dropEvents s).ip = s.ip := rfl
@[simp] theorem dropEvents_fr (s : State) : (dropEvents s).fr = s.fr := rfl
@[simp] theorem dropEvents_ir (s : State) : (dropEvents s).ir = s.ir := rfl
@[simp] theorem dropEvents_halted (s : State) : (dropEvents s).halted = s.halted := rfl
@[simp] theorem dropEvents_mem (s : State) : (dropEvents s).mem = s.mem := rfl
@[simp] theorem dropEvents_code (s : State) : (dropEvents s).code = s.code := rfl
@[simp] theorem dropEvents_spUndefined (s : State) : (dropEvents s).spUndefined = s.spUndefined := rfl
@[simp] theorem dropEvents_bpUndefined (s : State) : (dropEvents s).bpUndefined = s.bpUndefined := rfl
@[simp] theorem dropEvents_ipUndefined (s : State) : (dropEvents s).ipUndefined = s.ipUndefined := rfl
@[simp] theorem dropEvents_events (s : State) : (dropEvents s).events = s.events.tail := rfl
@[simp] theorem dropEvents_draws (s : State) : (dropEvents s).draws = s.draws := rfl

/-! ### passOpcode -/

@[simp] theorem passOpcode_cfg (s : State) : (passOpcode s).cfg = s.cfg := rfl
@[simp] theorem passOpcode_sp (s : State) : (passOpcode s).sp = s.sp := rfl
@[simp] theorem passOpcode_bp (s : State) : (passOpcode s).bp = s.bp := rfl
@[simp] theorem passOpcode_ip (s : State) : (passOpcode s).ip = s.ip + 2#16 := rfl
@[simp] theorem passOpcode_fr (s : State) : (passOpcode s).fr = s.fr := rfl
@[simp] theorem passOpcode_ir (s : State) : (passOpcode s).ir = s.ir := rfl
@[simp] theorem passOpcode_halted (s : State) : (passOpcode s).halted = false := rfl
@[simp] theorem passOpcode_mem (s : State) : (passOpcode s).mem = s.mem := rfl
@[simp] theorem passOpcode_code (s : State) : (passOpcode s).code = s.code := rfl
@[simp] theorem passOpcode_spUndefined (s : State) : (passOpcode s).spUndefined = s.spUndefined := rfl
@[simp] theorem passOpcode_bpUndefined (s : State) : (passOpcode s).bpUndefined = s.bpUndefined := rfl
@[simp] theorem passOpcode_ipUndefined (s : State) : (passOpcode s).ipUndefined = s.ipUndefined := rfl
@[simp] theorem passOpcode_events (s : State) : (passOpcode s).events = s.events := rfl
@[simp] theorem passOpcode_draws (s : State) : (passOpcode s).draws = s.draws := rfl

/-! ### passImmediate -/

@[simp] theorem passImmediate_cfg (m : Mode) (s : State) : (passImmediate m s).cfg = s.cfg := by cases m <;> rfl
@[simp] theorem passImmediate_sp (m : Mode) (s : State) : (passImmediate m s).sp = s.sp := by cases m <;> rfl
@[simp] theorem passImmediate_bp (m : Mode) (s : State) : (passImmediate m s).bp = s.bp := by cases m <;> rfl
@[simp] theorem passImmediate_ip (m : Mode) (s : State) : (passImmediate m s).ip = s.ip + BitVec.ofNat 16 (immediateBytes m) := by cases m <;> simp [passImmediate, immediateBytes]
@[simp] theorem passImmediate_fr (m : Mode) (s : State) : (passImmediate m s).fr = s.fr := by cases m <;> rfl
@[simp] theorem passImmediate_ir (m : Mode) (s : State) : (passImmediate m s).ir = s.ir := by cases m <;> rfl
@[simp] theorem passImmediate_halted (m : Mode) (s : State) : (passImmediate m s).halted = s.halted := by cases m <;> rfl
@[simp] theorem passImmediate_mem (m : Mode) (s : State) : (passImmediate m s).mem = s.mem := by cases m <;> rfl
@[simp] theorem passImmediate_code (m : Mode) (s : State) : (passImmediate m s).code = s.code := by cases m <;> rfl
@[simp] theorem passImmediate_spUndefined (m : Mode) (s : State) : (passImmediate m s).spUndefined = s.spUndefined := by cases m <;> rfl
@[simp] theorem passImmediate_bpUndefined (m : Mode) (s : State) : (passImmediate m s).bpUndefined = s.bpUndefined := by cases m <;> rfl
@[simp] theorem passImmediate_ipUndefined (m : Mode) (s : State) : (passImmediate m s).ipUndefined = s.ipUndefined := by cases m <;> rfl
@[simp] theorem passImmediate_events (m : Mode) (s : State) : (passImmediate m s).events = s.events := by cases m <;> rfl
@[simp] theorem passImmediate_draws (m : Mode) (s : State) : (passImmediate m s).draws = s.draws := by cases m <;> rfl

/-! ### flagStage -/

@[simp] theorem flagStage_cfg (f : Fields) (o : Word) (s : State) : (flagStage f o s).cfg = s.cfg := by unfold flagStage; split <;> rfl
@[simp] theorem flagStage_sp (f : Fields) (o : Word) (s : State) : (flagStage f o s).sp = s.sp := by unfold flagStage; split <;> rfl
@[simp] theorem flagStage_bp (f : Fields) (o : Word) (s : State) : (flagStage f o s).bp = s.bp := by unfold flagStage; split <;> rfl
@[simp] theorem flagStage_ip (f : Fields) (o : Word) (s : State) : (flagStage f o s).ip = s.ip := by unfold flagStage; split <;> rfl
@[simp] theorem flagStage_fr (f : Fields) (o : Word) (s : State) : (flagStage f o s).fr = if f.flg then writeZN s.fr o else s.fr := by unfold flagStage; split <;> rfl
@[simp] theorem flagStage_ir (f : Fields) (o : Word) (s : State) : (flagStage f o s).ir = s.ir := by unfold flagStage; split <;> rfl
@[simp] theorem flagStage_halted (f : Fields) (o : Word) (s : State) : (flagStage f o s).halted = s.halted := by unfold flagStage; split <;> rfl
@[simp] theorem flagStage_mem (f : Fields) (o : Word) (s : State) : (flagStage f o s).mem = s.mem := by unfold flagStage; split <;> rfl
@[simp] theorem flagStage_code (f : Fields) (o : Word) (s : State) : (flagStage f o s).code = s.code := by unfold flagStage; split <;> rfl
@[simp] theorem flagStage_spUndefined (f : Fields) (o : Word) (s : State) : (flagStage f o s).spUndefined = s.spUndefined := by unfold flagStage; split <;> rfl
@[simp] theorem flagStage_bpUndefined (f : Fields) (o : Word) (s : State) : (flagStage f o s).bpUndefined = s.bpUndefined := by unfold flagStage; split <;> rfl
@[simp] theorem flagStage_ipUndefined (f : Fields) (o : Word) (s : State) : (flagStage f o s).ipUndefined = s.ipUndefined := by unfold flagStage; split <;> rfl
@[simp] theorem flagStage_events (f : Fields) (o : Word) (s : State) : (flagStage f o s).events = s.events := by unfold flagStage; split <;> rfl
@[simp] theorem flagStage_draws (f : Fields) (o : Word) (s : State) : (flagStage f o s).draws = s.draws := by unfold flagStage; split <;> rfl

/-! ### rollback -/

@[simp] theorem rollback_cfg (s u : State) : (rollback s u).cfg = s.cfg := by simp [rollback]
@[simp] theorem rollback_sp (s u : State) : (rollback s u).sp = s.sp := by simp [rollback]
@[simp] theorem rollback_bp (s u : State) : (rollback s u).bp = s.bp := by simp [rollback]
@[simp] theorem rollback_ip (s u : State) : (rollback s u).ip = s.ip := by simp [rollback]
@[simp] theorem rollback_fr (s u : State) : (rollback s u).fr = s.fr := by simp [rollback]
@[simp] theorem rollback_ir (s u : State) : (rollback s u).ir = if s.cfg.variant = .markII then s.ir ||| bitMask 2 else s.ir := by simp [rollback]
@[simp] theorem rollback_halted (s u : State) : (rollback s u).halted = s.halted := by simp [rollback]
@[simp] theorem rollback_mem (s u : State) : (rollback s u).mem = s.mem := by simp [rollback]
@[simp] theorem rollback_code (s u : State) : (rollback s u).code = s.code := by simp [rollback]
@[simp] theorem rollback_spUndefined (s u : State) : (rollback s u).spUndefined = s.spUndefined := by simp [rollback]
@[simp] theorem rollback_bpUndefined (s u : State) : (rollback s u).bpUndefined = s.bpUndefined := by simp [rollback]
@[simp] theorem rollback_ipUndefined (s u : State) : (rollback s u).ipUndefined = s.ipUndefined := by simp [rollback]
@[simp] theorem rollback_events (s u : State) : (rollback s u).events = s.events := by simp [rollback]
@[simp] theorem rollback_draws (s u : State) : (rollback s u).draws = u.draws := by simp [rollback]

/-! ### ignore -/

@[simp] theorem ignore_cfg (f : Fields) (s : State) : (ignore f s).cfg = s.cfg := by simp [ignore]
@[simp] theorem ignore_sp (f : Fields) (s : State) : (ignore f s).sp = s.sp := by simp [ignore]
@[simp] theorem ignore_bp (f : Fields) (s : State) : (ignore f s).bp = s.bp := by simp [ignore]
@[simp] theorem ignore_ip (f : Fields) (s : State) : (ignore f s).ip = nextIp f s := by simp [ignore, nextIp]
@[simp] theorem ignore_fr (f : Fields) (s : State) : (ignore f s).fr = s.fr := by simp [ignore]
@[simp] theorem ignore_ir (f : Fields) (s : State) : (ignore f s).ir = s.ir := by simp [ignore]
@[simp] theorem ignore_halted (f : Fields) (s : State) : (ignore f s).halted = false := by simp [ignore]
@[simp] theorem ignore_mem (f : Fields) (s : State) : (ignore f s).mem = s.mem := by simp [ignore]
@[simp] theorem ignore_code (f : Fields) (s : State) : (ignore f s).code = s.code := by simp [ignore]
@[simp] theorem ignore_spUndefined (f : Fields) (s : State) : (ignore f s).spUndefined = s.spUndefined := by simp [ignore]
@[simp] theorem ignore_bpUndefined (f : Fields) (s : State) : (ignore f s).bpUndefined = s.bpUndefined := by simp [ignore]
@[simp] theorem ignore_ipUndefined (f : Fields) (s : State) : (ignore f s).ipUndefined = s.ipUndefined := by simp [ignore]
@[simp] theorem ignore_events (f : Fields) (s : State) : (ignore f s).events = s.events := by simp [ignore]
@[simp] theorem ignore_draws (f : Fields) (s : State) : (ignore f s).draws = s.draws := by simp [ignore]

/-! ### externalEvents -/

@[simp] theorem externalEvents_cfg (s : State) : (externalEvents s).cfg = s.cfg := by unfold externalEvents; simp only []; (repeat' split) <;> simp
@[simp] theorem externalEvents_sp (s : State) : (externalEvents s).sp = s.sp := by unfold externalEvents; simp only []; (repeat' split) <;> simp
@[simp] theorem externalEvents_bp (s : State) : (externalEvents s).bp = s.bp := by unfold externalEvents; simp only []; (repeat' split) <;> simp
@[simp] theorem externalEvents_ip (s : State) : (externalEvents s).ip = s.ip := by unfold externalEvents; simp only []; (repeat' split) <;> simp
@[simp] theorem externalEvents_fr (s : State) : (externalEvents s).fr = s.fr := by unfold externalEvents; simp only []; (repeat' split) <;> simp
@[simp] theorem externalEvents_halted (s : State) : (externalEvents s).halted = s.halted := by unfold externalEvents; simp only []; (repeat' split) <;> simp
@[simp] theorem externalEvents_mem (s : State) : (externalEvents s).mem = s.mem := by unfold externalEvents; simp only []; (repeat' split) <;> simp
@[simp] theorem externalEvents_code (s : State) : (externalEvents s).code = s.code := by unfold externalEvents; simp only []; (repeat' split) <;> simp
@[simp] theorem externalEvents_spUndefined (s : State) : (externalEvents s).spUndefined = s.spUndefined := by unfold externalEvents; simp only []; (repeat' split) <;> simp
@[simp] theorem externalEvents_bpUndefined (s : State) : (externalEvents s).bpUndefined = s.bpUndefined := by unfold externalEvents; simp only []; (repeat' split) <;> simp
@[simp] theorem externalEvents_ipUndefined (s : State) : (externalEvents s).ipUndefined = s.ipUndefined := by unfold externalEvents; simp only []; (repeat' split) <;> simp
@[simp] theorem externalEvents_events (s : State) : (externalEvents s).events = s.events.tail := by unfold externalEvents; simp only []; (repeat' split) <;> simp
@[simp] theorem externalEvents_draws (s : State) : (externalEvents s).draws = s.draws := by unfold externalEvents; simp only []; (repeat' split) <;> simp

end Sys2Proof.Machine
end

