-- ==== Sys2Proof/Laws/Ops.lean ====
section
/-! SUPPORT. For each shared operation, once: what it does on a plain platform, and everything it can do if it answers
`ok` on any platform. -/

namespace Sys2Proof.Machine

/-! ### Sequencing -/

@[simp] theorem bind_ok {α β : Type} (a : α) (s : State) (k : α → State → Res β) : (Res.ok a s).bind k = k a s := rfl

@[simp] theorem bind_busError {α β : Type} (s : State) (k : α → State → Res β) :
    (Res.busError s : Res α).bind k = .busError s := rfl

@[simp] theorem bind_fault {α β : Type} (r : Fault) (k : α → State → Res β) :
    (Res.fault r : Res α).bind k = .fault r := rfl

/-- A sequence answers `ok` only through its first part. -/
theorem bind_eq_ok {α β : Type} {r : Res α} {k : α → State → Res β} {b : β} {t : State} (h : r.bind k = .ok b t) :
    ∃ a u, r = .ok a u ∧ k a u = .ok b t := by
  cases r with
  | ok a u => exact ⟨a, u, rfl, h⟩
  | busError u => cases h
  | fault e => cases h

/-- A sequence meets a bus error in its first part or after it. -/
theorem bind_eq_busError {α β : Type} {r : Res α} {k : α → State → Res β} {t : State} (h : r.bind k = .busError t) :
    r = .busError t ∨ ∃ a u, r = .ok a u ∧ k a u = .busError t := by
  cases r with
  | ok a u => exact .inr ⟨a, u, rfl, h⟩
  | busError u => exact .inl (by simpa using h)
  | fault e => cases h

/-! ### Address registers -/

@[simp] theorem addressIn_sp {s : State} (h : s.spUndefined = false) : addressIn .sp s = .ok s.sp s := by
  simp [addressIn, h]

@[simp] theorem addressIn_bp {s : State} (h : s.bpUndefined = false) : addressIn .bp s = .ok s.bp s := by
  simp [addressIn, h]

@[simp] theorem addressIn_ip {s : State} (h : s.ipUndefined = false) : addressIn .ip s = .ok s.ip s := by
  simp [addressIn, h]

/-- The content of a register, whether it is defined or not. -/
def contentOf : AddressRegister → State → Word
  | .sp, s => s.sp
  | .bp, s => s.bp
  | .ip, s => s.ip

/-- An operation through an address register answers `ok` only through its content, in the same state. -/
theorem through_ok {α : Type} {r : AddressRegister} {s t : State} {k : Word → State → Res α} {v : α}
    (h : (addressIn r s).bind k = .ok v t) : k (contentOf r s) s = .ok v t := by
  cases r <;> (unfold addressIn at h; simp only at h; split at h <;> first | cases h | exact h)

/-- It meets a bus error only after that. -/
theorem through_busError {α : Type} {r : AddressRegister} {s t : State} {k : Word → State → Res α}
    (h : (addressIn r s).bind k = .busError t) : k (contentOf r s) s = .busError t := by
  cases r <;> (unfold addressIn at h; simp only at h; split at h <;> first | cases h | exact h)

/-- The value of a defined register is its content. -/
@[simp] theorem registerValue_defined (v : Word) (s : State) : registerValue false v s = (v, s) := rfl

/-- The value of an undefined register is drawn. -/
@[simp] theorem registerValue_undefined (v : Word) (s : State) : registerValue true v s = draw s := rfl

/-- A read of a register's value changes nothing but the count of drawn values. -/
theorem registerValue_state (undefined : Bool) (v : Word) (s : State) :
    ∃ d, s.draws ≤ d ∧ (registerValue undefined v s).2 = { s with draws := d } := by
  cases undefined
  · exact ⟨s.draws, le_refl _, rfl⟩
  · exact ⟨s.draws + 1, by omega, rfl⟩

/-! ### Single bits -/

theorem getLsbD_bitMask (k i : Nat) : (bitMask k).getLsbD i = (decide (i < 16) && decide (i = k)) := by
  unfold bitMask
  rw [BitVec.getLsbD_shiftLeft, BitVec.getLsbD_one]
  by_cases hi : i < 16 <;> by_cases hk : i = k <;> simp [hi, hk]
  omega

/-- Bit `i` after a write of bit `k`. -/
theorem getLsbD_writeBit (w : Word) (k : Nat) (v : Bool) (i : Nat) :
    (writeBit w k v).getLsbD i = if i < 16 ∧ i = k then v else w.getLsbD i := by
  unfold writeBit
  by_cases hi : i < 16
  · cases v
    · rw [if_neg (by simp), BitVec.getLsbD_and, BitVec.getLsbD_not, getLsbD_bitMask]
      by_cases hk : i = k
      · subst hk; simp [hi]
      · simp [hi, hk]
    · rw [if_pos rfl, BitVec.getLsbD_or, getLsbD_bitMask]
      by_cases hk : i = k
      · subst hk; simp [hi]
      · simp [hi, hk]
  · have hw : w.getLsbD i = false := BitVec.getLsbD_of_ge w i (by omega)
    have hm : (bitMask k).getLsbD i = false := BitVec.getLsbD_of_ge _ i (by omega)
    cases v <;> simp [hi, hw, hm]

/-- The Z and N writes of the model are the closed form. -/
theorem writeZN_eq (fr output : Word) : writeZN fr output = withZN fr output := by
  have hN : output.getLsbD 15 = decide (0x8000 ≤ output.toNat) := by
    have := BitVec.msb_eq_decide output
    simpa [BitVec.msb_eq_getLsbD_last] using this
  have hb : (output == 0x0000#16) = decide (output = 0x0000#16) := by
    by_cases hz : output = 0x0000#16 <;> simp [hz]
  unfold writeZN withZN
  rw [hN, hb]
  apply BitVec.eq_of_getLsbD_eq
  intro i hi
  rw [getLsbD_writeBit, getLsbD_writeBit, BitVec.getLsbD_or, BitVec.getLsbD_or, BitVec.getLsbD_and]
  by_cases hz : output = 0x0000#16 <;> by_cases hn : 0x8000 ≤ output.toNat <;>
    simp only [hz, hn, if_true, if_false, decide_true, decide_false] <;>
    interval_cases i <;> simp

/-- The C write of the model is the closed form. -/
theorem writeC_eq (fr : Word) (c : Bool) : writeC fr c = withC fr c := by
  unfold writeC withC
  apply BitVec.eq_of_getLsbD_eq
  intro i hi
  rw [getLsbD_writeBit, BitVec.getLsbD_or, BitVec.getLsbD_and]
  cases c <;> interval_cases i <;> simp

/-! ### A plain platform -/

theorem busSignalled_plain {s : State} (h : s.Plain) (k : AccessKind) (n : Nat) (a : Word) :
    s.busSignalled k n a = false := by simp [State.busSignalled, h.1]

theorem isDevice_plain {s : State} (h : s.Plain) (a : Nat) : s.isDevice a = false := by simp [State.isDevice, h.2]

theorem readByteFrom_plain {s : State} (h : s.Plain) (m : Memory) (a : Nat) :
    readByteFrom m a s = (m.readByte a, s) := by simp [readByteFrom, isDevice_plain h]

theorem readWordFrom_plain {s : State} (h : s.Plain) (m : Memory) (a : Word) :
    readWordFrom m a s = (m.readWord a, s) := by simp [readWordFrom, readByteFrom_plain h, Memory.readWord]

theorem memRead8_plain {s : State} (h : s.Plain) (a : Word) : memRead8 a s = .ok (s.mem.readByte a.toNat) s := by
  simp [memRead8, busSignalled_plain h, readByteFrom_plain h]

theorem memRead16_plain {s : State} (h : s.Plain) {a : Word} (ha : IsEven a) :
    memRead16 a s = .ok (s.mem.readWord a) s := by
  simp only [memRead16, show a.getLsbD 0 = false from ha, Bool.false_eq_true, if_false, busSignalled_plain h,
    readWordFrom_plain h]

theorem memFetch_plain {s : State} (h : s.Plain) {a : Word} (ha : IsEven a) :
    memFetch a s = .ok (s.fetchMemory.readWord a) s := by
  simp only [memFetch, show a.getLsbD 0 = false from ha, Bool.false_eq_true, if_false, busSignalled_plain h,
    readWordFrom_plain h]

theorem memWrite8_plain {s : State} (h : s.Plain) (a v : Word) :
    memWrite8 a v s = .ok () { s with mem := s.mem.writeByte a.toNat (v.extractLsb' 0 8) } := by
  simp [memWrite8, busSignalled_plain h, writeByteTo, isDevice_plain h]

theorem memWrite16_plain {s : State} (h : s.Plain) {a : Word} (ha : IsEven a) (v : Word) :
    memWrite16 a v s = .ok () { s with mem := s.mem.writeWord a v } := by
  have h2 : ∀ m : Memory, State.isDevice { s with mem := m } (a.toNat + 1) = false := fun m =>
    isDevice_plain (s := { s with mem := m }) h _
  simp only [memWrite16, show a.getLsbD 0 = false from ha, Bool.false_eq_true, if_false, busSignalled_plain h,
    writeByteTo, isDevice_plain h, h2, Memory.writeWord]

/-- `push` on a plain platform through an SP that is defined and even. -/
theorem push_plain {s : State} (h : s.Plain) (hu : s.spUndefined = false) (hs : IsEven (s.sp - 2#16)) (v : Word) :
    push v s = .ok () { s with sp := s.sp - 2#16, mem := s.mem.writeWord (s.sp - 2#16) v } := by
  unfold push
  rw [addressIn_sp hu, bind_ok, memWrite16_plain (s := { s with sp := s.sp - 2#16 }) h hs]

/-- Adding or taking 2 keeps an address even. -/
theorem isEven_add_two {a : Word} (h : IsEven a) : IsEven (a + 2#16) := by
  simp only [IsEven, BitVec.getLsbD, Nat.testBit_zero, decide_eq_false_iff_not] at h ⊢
  rw [BitVec.toNat_add]
  have : (2#16).toNat = 2 := rfl
  omega

theorem isEven_sub_two {a : Word} (h : IsEven a) : IsEven (a - 2#16) := by
  simp only [IsEven, BitVec.getLsbD, Nat.testBit_zero, decide_eq_false_iff_not] at h ⊢
  rw [BitVec.toNat_sub]
  have : (2#16).toNat = 2 := rfl
  omega

/-! ### Any platform: everything an operation that answers `ok` can have done -/

/-- A byte read changes nothing but the count of drawn values. -/
theorem readByteFrom_state (m : Memory) (a : Nat) (s : State) :
    ∃ d, s.draws ≤ d ∧ (readByteFrom m a s).2 = { s with draws := d } := by
  unfold readByteFrom
  split
  · exact ⟨s.draws + 1, by omega, rfl⟩
  · exact ⟨s.draws, le_refl _, rfl⟩

/-- A word read changes nothing but the count of drawn values. -/
theorem readWordFrom_state (m : Memory) (a : Word) (s : State) :
    ∃ d, s.draws ≤ d ∧ (readWordFrom m a s).2 = { s with draws := d } := by
  obtain ⟨d, hd, h⟩ := readByteFrom_state m a.toNat s
  obtain ⟨e, he, h'⟩ := readByteFrom_state m (a.toNat + 1) { s with draws := d }
  refine ⟨e, by simp at he; omega, ?_⟩
  simp only [readWordFrom, h, h']

theorem memRead8_ok {a : Word} {s t : State} {v : Byte} (h : memRead8 a s = .ok v t) :
    ∃ d, s.draws ≤ d ∧ t = { s with draws := d } := by
  unfold memRead8 at h
  split at h
  · cases h
  · obtain ⟨d, hd, e⟩ := readByteFrom_state s.mem a.toNat s
    injection h with _ h
    exact ⟨d, hd, by rw [← h, e]⟩

theorem memRead16_ok {a : Word} {s t : State} {v : Word} (h : memRead16 a s = .ok v t) :
    IsEven a ∧ ∃ d, s.draws ≤ d ∧ t = { s with draws := d } := by
  unfold memRead16 at h
  split at h
  · cases h
  split at h
  · cases h
  · rename_i ha _
    obtain ⟨d, hd, e⟩ := readWordFrom_state s.mem a s
    injection h with _ h
    exact ⟨Bool.eq_false_iff.mpr ha, d, hd, by rw [← h, e]⟩

theorem memFetch_ok {a : Word} {s t : State} {v : Word} (h : memFetch a s = .ok v t) :
    IsEven a ∧ ∃ d, s.draws ≤ d ∧ t = { s with draws := d } := by
  unfold memFetch at h
  split at h
  · cases h
  split at h
  · cases h
  · rename_i ha _
    obtain ⟨d, hd, e⟩ := readWordFrom_state s.fetchMemory a s
    injection h with _ h
    exact ⟨Bool.eq_false_iff.mpr ha, d, hd, by rw [← h, e]⟩

/-- A byte write changes memory only, at that address only, and keeps the canonical form. -/
theorem writeByteTo_state (a : Nat) (v : Byte) (s : State) :
    ∃ m : Memory, writeByteTo a v s = { s with mem := m } ∧
      (∀ x, x ≠ a → m.readByte x = s.mem.readByte x) ∧ (a < 65536 → s.mem.wf = true → m.wf = true) := by
  unfold writeByteTo
  split
  · exact ⟨s.mem, rfl, fun _ _ => rfl, fun _ h => h⟩
  · exact ⟨_, rfl, fun x hx => readByte_writeByte_other _ hx v, fun ha h => wf_writeByte h ha v⟩

theorem memWrite8_ok {a v : Word} {s t : State} (h : memWrite8 a v s = .ok () t) :
    ∃ m : Memory, t = { s with mem := m } ∧
      (∀ x, x ≠ a.toNat → m.readByte x = s.mem.readByte x) ∧ (s.mem.wf = true → m.wf = true) := by
  unfold memWrite8 at h
  split at h
  · cases h
  · obtain ⟨m, e, h1, h2⟩ := writeByteTo_state a.toNat (v.extractLsb' 0 8) s
    injection h with _ h
    exact ⟨m, by rw [← h, e], h1, h2 a.isLt⟩

theorem memWrite16_ok {a v : Word} {s t : State} (h : memWrite16 a v s = .ok () t) :
    IsEven a ∧ ∃ m : Memory, t = { s with mem := m } ∧
      (∀ x, x ≠ a.toNat → x ≠ a.toNat + 1 → m.readByte x = s.mem.readByte x) ∧ (s.mem.wf = true → m.wf = true) := by
  unfold memWrite16 at h
  split at h
  · cases h
  split at h
  · cases h
  · rename_i ha _
    have ha' : IsEven a := Bool.eq_false_iff.mpr ha
    obtain ⟨m, e, h1, h2⟩ := writeByteTo_state a.toNat (v.extractLsb' 0 8) s
    obtain ⟨n, e', h1', h2'⟩ := writeByteTo_state (a.toNat + 1) (v.extractLsb' 8 8) { s with mem := m }
    injection h with _ h
    refine ⟨ha', n, by rw [← h, e, e'], fun x hx hx' => ?_, fun hw => h2' (toNat_succ_lt ha') (h2 a.isLt hw)⟩
    rw [h1' x hx', h1 x hx]

/-- Everything a push can do. -/
theorem push_ok {v : Word} {s t : State} (h : push v s = .ok () t) :
    IsEven (s.sp - 2#16) ∧ ∃ m : Memory, t = { s with sp := s.sp - 2#16, mem := m } ∧
      (∀ x, x ≠ (s.sp - 2#16).toNat → x ≠ (s.sp - 2#16).toNat + 1 → m.readByte x = s.mem.readByte x) ∧
      (s.mem.wf = true → m.wf = true) :=
  memWrite16_ok (s := { s with sp := s.sp - 2#16 })
    (through_ok (r := .sp) (k := fun sp u => memWrite16 (sp - 2#16) v { u with sp := sp - 2#16 }) h)

theorem writeFR_ok {new : Word} {s t : State} (h : writeFR new s = .ok () t) :
    new &&& reservedFlags s.cfg.variant = 0x0000#16 ∧ t = { s with fr := new } := by
  unfold writeFR at h
  split at h
  · rename_i hr
    injection h with _ h
    exact ⟨hr, h.symm⟩
  · cases h

theorem jumpSettingFlags_ok {target mask : Word} {s t : State} (h : jumpSettingFlags target mask s = .ok () t) :
    (s.fr ||| mask) &&& reservedFlags s.cfg.variant = 0x0000#16 ∧ t = { s with ip := target, ipUndefined := false, fr := s.fr ||| mask } :=
  writeFR_ok h

/-- Everything one input can do: IP, SP and the count of drawn values may change. -/
theorem fetchInput_ok {m : Mode} {s t : State} {v : Word} (h : fetchInput m s = .ok v t) :
    ∃ d, s.draws ≤ d ∧ t = { s with ip := s.ip + BitVec.ofNat 16 (immediateBytes m),
                                     sp := s.sp + BitVec.ofNat 16 (popBytes m), draws := d } := by
  cases m with
  | zero =>
    injection h with _ h
    exact ⟨s.draws, le_refl _, by subst h; simp [immediateBytes, popBytes]⟩
  | immediate =>
    obtain ⟨w, u, hu, h⟩ := bind_eq_ok h
    obtain ⟨_, d, hd, e⟩ := memFetch_ok (through_ok hu)
    injection h with _ h
    exact ⟨d, hd, by subst h e; simp [immediateBytes, popBytes]⟩
  | peek =>
    obtain ⟨_, d, hd, e⟩ := memRead16_ok (through_ok h)
    exact ⟨d, hd, by subst e; simp [immediateBytes, popBytes]⟩
  | pop =>
    obtain ⟨w, u, hu, h⟩ := bind_eq_ok h
    obtain ⟨_, d, hd, e⟩ := memRead16_ok (through_ok hu)
    injection h with _ h
    exact ⟨d, hd, by subst h e; simp [immediateBytes, popBytes]⟩

/-- Everything the input stage can do. -/
theorem inputStage_ok {f : Fields} {s t : State} {v : Word × Word} (h : inputStage f s = .ok v t) :
    ∃ d, s.draws ≤ d ∧
      t = { s with ip := s.ip + BitVec.ofNat 16 (immediateBytes f.in0) + BitVec.ofNat 16 (immediateBytes f.in1),
                   sp := s.sp + BitVec.ofNat 16 (popBytes f.in0) + BitVec.ofNat 16 (popBytes f.in1), draws := d } := by
  obtain ⟨a, u, hu, h⟩ := bind_eq_ok h
  obtain ⟨b, w, hw, h⟩ := bind_eq_ok h
  obtain ⟨d, hd, rfl⟩ := fetchInput_ok hu
  obtain ⟨e, he, rfl⟩ := fetchInput_ok hw
  injection h with _ h
  exact ⟨e, by simp at he; omega, h.symm⟩

/-- Everything the output stage can do. -/
theorem outputStage_ok {f : Fields} {o : Word} {s t : State} (h : outputStage f o s = .ok () t) :
    (f.out = false ∧ t = s) ∨ (f.out = true ∧ IsEven (s.sp - 2#16) ∧ ∃ m : Memory,
      t = { s with sp := s.sp - 2#16, mem := m } ∧
      (∀ x, x ≠ (s.sp - 2#16).toNat → x ≠ (s.sp - 2#16).toNat + 1 → m.readByte x = s.mem.readByte x) ∧
      (s.mem.wf = true → m.wf = true)) := by
  unfold outputStage at h
  split at h
  · rename_i ho
    obtain ⟨he, m, hm⟩ := push_ok h
    exact .inr ⟨ho, he, m, hm⟩
  · rename_i ho
    injection h with _ h
    exact .inl ⟨by simpa using ho, h.symm⟩

/-- Everything a command can do if it answers a next state: ignored, taken back by a bus error, or through all five
stages. -/
theorem runCommand_next {f : Fields} {body : Word → Word → State → Res Word} {s t : State}
    (h : runCommand f body s = .next t) :
    (conditionHolds f.cond s.fr = false ∧ t = ignore f s) ∨
    (conditionHolds f.cond s.fr = true ∧ ∃ u, executeStages f body (passOpcode s) = .busError u ∧ t = rollback s u) ∨
    (conditionHolds f.cond s.fr = true ∧ ∃ v s1 o s2 s3, inputStage f (passOpcode s) = .ok v s1 ∧
      body v.1 v.2 s1 = .ok o s2 ∧ outputStage f o s2 = .ok () s3 ∧ t = flagStage f o s3) := by
  unfold runCommand at h
  split at h
  · rename_i hc
    split at h
    · rename_i u e
      obtain ⟨v, s1, h1, e⟩ := bind_eq_ok e
      obtain ⟨o, s2, h2, e⟩ := bind_eq_ok e
      obtain ⟨_, s3, h3, e⟩ := bind_eq_ok e
      injection e with _ e
      injection h with h
      exact .inr (.inr ⟨hc, v, s1, o, s2, s3, h1, h2, h3, by rw [← h, ← e]⟩)
    · rename_i u e
      injection h with h
      exact .inr (.inl ⟨hc, u, e, h.symm⟩)
    · cases h
  · rename_i hc
    injection h with h
    exact .inl ⟨by simpa using hc, h.symm⟩

/-- A reserved command answers a next state only when it is ignored. -/
theorem runReserved_next {f : Fields} {s t : State} (h : runReserved f s = .next t) :
    conditionHolds f.cond s.fr = false ∧ t = ignore f s := by
  unfold runReserved at h
  split at h
  · cases h
  · rename_i hc
    injection h with h
    exact ⟨by simpa using hc, h.symm⟩

/-! ### Bus errors come only on a Mark II -/

theorem memRead8_busError {a : Word} {s t : State} (h : memRead8 a s = .busError t) :
    s.cfg.variant = .markII ∧ t = s := by
  unfold memRead8 at h
  split at h
  · rename_i hb
    injection h with h
    simp only [State.busSignalled, Bool.and_eq_true, decide_eq_true_eq] at hb
    exact ⟨hb.1, h.symm⟩
  · cases h

theorem memRead16_busError {a : Word} {s t : State} (h : memRead16 a s = .busError t) :
    s.cfg.variant = .markII ∧ t = s := by
  unfold memRead16 at h
  split at h
  · cases h
  split at h
  · rename_i hb
    injection h with h
    simp only [State.busSignalled, Bool.and_eq_true, decide_eq_true_eq] at hb
    exact ⟨hb.1, h.symm⟩
  · cases h

theorem memFetch_busError {a : Word} {s t : State} (h : memFetch a s = .busError t) :
    s.cfg.variant = .markII ∧ t = s := by
  unfold memFetch at h
  split at h
  · cases h
  split at h
  · rename_i hb
    injection h with h
    simp only [State.busSignalled, Bool.and_eq_true, decide_eq_true_eq] at hb
    exact ⟨hb.1, h.symm⟩
  · cases h

theorem memWrite8_busError {a v : Word} {s t : State} (h : memWrite8 a v s = .busError t) :
    s.cfg.variant = .markII ∧ t = s := by
  unfold memWrite8 at h
  split at h
  · rename_i hb
    injection h with h
    simp only [State.busSignalled, Bool.and_eq_true, decide_eq_true_eq] at hb
    exact ⟨hb.1, h.symm⟩
  · cases h

theorem memWrite16_busError {a v : Word} {s t : State} (h : memWrite16 a v s = .busError t) :
    s.cfg.variant = .markII ∧ t = s := by
  unfold memWrite16 at h
  split at h
  · cases h
  split at h
  · rename_i hb
    injection h with h
    simp only [State.busSignalled, Bool.and_eq_true, decide_eq_true_eq] at hb
    exact ⟨hb.1, h.symm⟩
  · cases h

/-! ### Interrupts -/

/-- Everything taking an interrupt can do. -/
theorem enterInterrupt_ok {b : Nat} {s t : State} (h : enterInterrupt b s = .ok () t) :
    ∃ (m : Memory) (ip : Word) (d : Nat),
      t = { s with sp := s.sp - 2#16 - 2#16, ip := ip, ipUndefined := false, mem := m, draws := d,
                   fr := if 4 ≤ b then writeBit s.fr b false else s.fr } ∧ (s.mem.wf = true → m.wf = true) := by
  obtain ⟨_, u, hu, h⟩ := bind_eq_ok h
  obtain ⟨_, w, hw, h⟩ := bind_eq_ok h
  obtain ⟨x, y, hy, h⟩ := bind_eq_ok h
  obtain ⟨_, m, rfl, _, hm⟩ := push_ok hu
  obtain ⟨_, n, rfl, _, hn⟩ := push_ok hw
  obtain ⟨_, d, _, rfl⟩ := memFetch_ok hy
  injection h with _ h
  exact ⟨n, x, d, by subst h; rfl, fun hw => hn (hm hw)⟩

/-- Everything the loop of the interrupt phase can do: SP, IP, memory, drawn values; FR bits only cleared; the bits of
IR from `n` down to 1 cleared. -/
theorem serviceInterrupts_ok {n : Nat} {taken taken' : Bool} {s t : State}
    (h : serviceInterrupts n taken s = .ok taken' t) :
    ∃ (m : Memory) (sp ip fr ir : Word) (d : Nat) (unset : Bool),
      t = { s with sp := sp, ip := ip, mem := m, draws := d, fr := fr, ir := ir, ipUndefined := unset } ∧
      (s.mem.wf = true → m.wf = true) ∧ (∀ i, fr.getLsbD i = true → s.fr.getLsbD i = true) ∧
      (∀ i, ir.getLsbD i = (s.ir.getLsbD i && !(decide (1 ≤ i) && decide (i ≤ n)))) ∧
      (∀ i, i < 4 → fr.getLsbD i = s.fr.getLsbD i) := by
  induction n generalizing s taken with
  | zero =>
    injection h with _ h
    exact ⟨s.mem, s.sp, s.ip, s.fr, s.ir, s.draws, s.ipUndefined, h.symm, id, fun _ => id, fun i => by
      by_cases h1 : 1 ≤ i <;> simp [h1]; omega, fun _ _ => rfl⟩
  | succ n ih =>
    have bits : ∀ i, (writeBit s.ir (n + 1) false).getLsbD i = (s.ir.getLsbD i && !decide (i = n + 1)) := by
      intro i
      rw [getLsbD_writeBit]
      by_cases hi : i = n + 1 <;> by_cases h16 : i < 16 <;> simp [hi]
      all_goals (intro hlt; try omega)
      all_goals simp_all
    unfold serviceInterrupts at h
    split at h
    · rename_i hb
      split at h
      · obtain ⟨_, u, hu, h⟩ := bind_eq_ok h
        obtain ⟨m, ip, d, rfl, hm⟩ := enterInterrupt_ok hu
        obtain ⟨m', sp', ip', fr', ir', d', x', rfl, hm', hf, hi, hk⟩ := ih h
        refine ⟨m', sp', ip', fr', ir', d', x', rfl, fun hw => hm' (hm hw), fun i hfi => ?_, fun i => ?_, fun i h4 => ?_⟩
        · have := hf i hfi
          simp only at this
          split at this
          · rw [getLsbD_writeBit] at this
            split at this
            · cases this
            · exact this
          · exact this
        · rw [hi i]
          simp only [bits]
          by_cases h1 : i = n + 1
          · subst h1; simp
          · have : (i ≤ n + 1) = (i ≤ n) := by simp; omega
            simp [h1, this]
        · rw [hk i h4]
          simp only
          split
          · rw [getLsbD_writeBit, if_neg (by omega)]
          · rfl
      · obtain ⟨m', sp', ip', fr', ir', d', x', rfl, hm', hf, hi, hk⟩ := ih h
        refine ⟨m', sp', ip', fr', ir', d', x', rfl, hm', hf, fun i => ?_, hk⟩
        rw [hi i]
        simp only [bits]
        by_cases h1 : i = n + 1
        · subst h1; simp
        · have : (i ≤ n + 1) = (i ≤ n) := by simp; omega
          simp [h1, this]
    · rename_i hb
      obtain ⟨m', sp', ip', fr', ir', d', x', rfl, hm', hf, hi, hk⟩ := ih h
      refine ⟨m', sp', ip', fr', ir', d', x', rfl, hm', hf, fun i => ?_, hk⟩
      rw [hi i]
      by_cases h1 : i = n + 1
      · subst h1; simp at hb; simp [hb]
      · have : (i ≤ n + 1) = (i ≤ n) := by simp; omega
        simp [this]

/-- Everything the reset sequence can do. -/
theorem takeReset_ok {s t : State} (h : takeReset s = .ok () t) :
    ∃ (ip : Word) (d : Nat),
      t = { s with spUndefined := true, bpUndefined := true, ip := ip, ipUndefined := false,
                   fr := 0x0000#16, ir := 0x0000#16, halted := false, draws := d } := by
  obtain ⟨x, u, hu, h⟩ := bind_eq_ok h
  obtain ⟨_, d, _, rfl⟩ := memFetch_ok hu
  injection h with _ h
  exact ⟨x, d, h.symm⟩

end Sys2Proof.Machine
end

