-- ==== Sys2Proof/Laws/PerInstr.lean ====
section
/-! SUPPORT. The family EncodesItsRow: the encoder's word for every well-formed instruction lies in that instruction's
row of spec/opcode_table.json (30_encoding.md R92: "a word `w` belongs to the row with `w & mask = match`"). -/

namespace Sys2Proof.Laws

/-- The mask and the match of an instruction's row, as spec/opcode_table.json prints them. -/
def tableRow : Instr → Word × Word
  | .copy _ => (0xFE00#16, 0x0000#16)
  | .get _ => (0xFE00#16, 0x0400#16)
  | .set _ => (0xFE00#16, 0x0600#16)
  | .store8 _ => (0xFE00#16, 0x0800#16)
  | .store16 _ => (0xFE00#16, 0x0A00#16)
  | .load8 _ => (0xFE00#16, 0x0C00#16)
  | .load16 _ => (0xFE00#16, 0x0E00#16)
  | .cpuid _ => (0xFE00#16, 0x1000#16)
  | .halt _ => (0xFE00#16, 0x1200#16)
  | .frget _ => (0xFE00#16, 0x1400#16)
  | .frset _ => (0xFE00#16, 0x1600#16)
  | .bpget _ => (0xFE00#16, 0x1800#16)
  | .bpset _ => (0xFE00#16, 0x1A00#16)
  | .spget _ => (0xFE00#16, 0x1C00#16)
  | .spset _ => (0xFE00#16, 0x1E00#16)
  | .add _ => (0xFE00#16, 0x2000#16)
  | .sub _ => (0xFE00#16, 0x2200#16)
  | .mul _ => (0xFE00#16, 0x2400#16)
  | .div _ => (0xFE00#16, 0x2600#16)
  | .mod _ => (0xFE00#16, 0x2800#16)
  | .and _ => (0xFE00#16, 0x2A00#16)
  | .or _ => (0xFE00#16, 0x2C00#16)
  | .xor _ => (0xFE00#16, 0x2E00#16)
  | .not _ => (0xFE00#16, 0x3000#16)
  | .signext _ => (0xFE00#16, 0x3200#16)
  | .rol _ => (0xFE00#16, 0x3400#16)
  | .ror _ => (0xFE00#16, 0x3600#16)
  | .bswap _ => (0xFE00#16, 0x3800#16)
  | .asr _ => (0xFE00#16, 0x3A00#16)
  | .lsl _ => (0xFE00#16, 0x3C00#16)
  | .lsr _ => (0xFE00#16, 0x3E00#16)
  | .setip _ => (0xFE00#16, 0x4000#16)
  | .addip _ => (0xFE00#16, 0x4200#16)
  | .intr _ => (0xFE00#16, 0x4400#16)
  | .reservedCmd1 _ => (0xFE00#16, 0x0200#16)
  | .reservedCmd35 _ => (0xFE00#16, 0x4600#16)
  | .reservedCmd36to39 _ _ => (0xF800#16, 0x4800#16)
  | .reservedCmd40to47 _ _ => (0xF000#16, 0x5000#16)
  | .reservedCmd48to63 _ _ => (0xE000#16, 0x6000#16)
  | .reservedBit15 _ => (0x8000#16, 0x8000#16)

/-- The encoder's word of a well-formed instruction belongs to the instruction's row. -/
def EncodesItsRow.Statement (i : Instr) : Prop :=
  i.WellFormed = true → encodeWord i &&& (tableRow i).1 = (tableRow i).2

/-- A word's bits under a mask that covers whole high bits depend on the command field alone. -/
theorem opcodeWord_and_mask (c : BitVec 6) (f : Fields) : opcodeWord c f &&& 0xFE00#16 = (0#1 ++ c ++ 0#9) := by
  apply BitVec.eq_of_getLsbD_eq
  intro i hi
  simp only [opcodeWord, BitVec.getLsbD_and, BitVec.getLsbD_append]
  interval_cases i <;> simp

theorem EncodesItsRow.copy (f : Fields) : EncodesItsRow.Statement (.copy f) := fun _ =>
  (opcodeWord_and_mask _ f).trans rfl

theorem EncodesItsRow.get (f : Fields) : EncodesItsRow.Statement (.get f) := fun _ =>
  (opcodeWord_and_mask _ f).trans rfl

theorem EncodesItsRow.set (f : Fields) : EncodesItsRow.Statement (.set f) := fun _ =>
  (opcodeWord_and_mask _ f).trans rfl

theorem EncodesItsRow.store8 (f : Fields) : EncodesItsRow.Statement (.store8 f) := fun _ =>
  (opcodeWord_and_mask _ f).trans rfl

theorem EncodesItsRow.store16 (f : Fields) : EncodesItsRow.Statement (.store16 f) := fun _ =>
  (opcodeWord_and_mask _ f).trans rfl

theorem EncodesItsRow.load8 (f : Fields) : EncodesItsRow.Statement (.load8 f) := fun _ =>
  (opcodeWord_and_mask _ f).trans rfl

theorem EncodesItsRow.load16 (f : Fields) : EncodesItsRow.Statement (.load16 f) := fun _ =>
  (opcodeWord_and_mask _ f).trans rfl

theorem EncodesItsRow.cpuid (f : Fields) : EncodesItsRow.Statement (.cpuid f) := fun _ =>
  (opcodeWord_and_mask _ f).trans rfl

theorem EncodesItsRow.halt (f : Fields) : EncodesItsRow.Statement (.halt f) := fun _ =>
  (opcodeWord_and_mask _ f).trans rfl

theorem EncodesItsRow.frget (f : Fields) : EncodesItsRow.Statement (.frget f) := fun _ =>
  (opcodeWord_and_mask _ f).trans rfl

theorem EncodesItsRow.frset (f : Fields) : EncodesItsRow.Statement (.frset f) := fun _ =>
  (opcodeWord_and_mask _ f).trans rfl

theorem EncodesItsRow.bpget (f : Fields) : EncodesItsRow.Statement (.bpget f) := fun _ =>
  (opcodeWord_and_mask _ f).trans rfl

theorem EncodesItsRow.bpset (f : Fields) : EncodesItsRow.Statement (.bpset f) := fun _ =>
  (opcodeWord_and_mask _ f).trans rfl

theorem EncodesItsRow.spget (f : Fields) : EncodesItsRow.Statement (.spget f) := fun _ =>
  (opcodeWord_and_mask _ f).trans rfl

theorem EncodesItsRow.spset (f : Fields) : EncodesItsRow.Statement (.spset f) := fun _ =>
  (opcodeWord_and_mask _ f).trans rfl

theorem EncodesItsRow.add (f : Fields) : EncodesItsRow.Statement (.add f) := fun _ =>
  (opcodeWord_and_mask _ f).trans rfl

theorem EncodesItsRow.sub (f : Fields) : EncodesItsRow.Statement (.sub f) := fun _ =>
  (opcodeWord_and_mask _ f).trans rfl

theorem EncodesItsRow.mul (f : Fields) : EncodesItsRow.Statement (.mul f) := fun _ =>
  (opcodeWord_and_mask _ f).trans rfl

theorem EncodesItsRow.div (f : Fields) : EncodesItsRow.Statement (.div f) := fun _ =>
  (opcodeWord_and_mask _ f).trans rfl

theorem EncodesItsRow.mod (f : Fields) : EncodesItsRow.Statement (.mod f) := fun _ =>
  (opcodeWord_and_mask _ f).trans rfl

theorem EncodesItsRow.and (f : Fields) : EncodesItsRow.Statement (.and f) := fun _ =>
  (opcodeWord_and_mask _ f).trans rfl

theorem EncodesItsRow.or (f : Fields) : EncodesItsRow.Statement (.or f) := fun _ =>
  (opcodeWord_and_mask _ f).trans rfl

theorem EncodesItsRow.xor (f : Fields) : EncodesItsRow.Statement (.xor f) := fun _ =>
  (opcodeWord_and_mask _ f).trans rfl

theorem EncodesItsRow.not (f : Fields) : EncodesItsRow.Statement (.not f) := fun _ =>
  (opcodeWord_and_mask _ f).trans rfl

theorem EncodesItsRow.signext (f : Fields) : EncodesItsRow.Statement (.signext f) := fun _ =>
  (opcodeWord_and_mask _ f).trans rfl

theorem EncodesItsRow.rol (f : Fields) : EncodesItsRow.Statement (.rol f) := fun _ =>
  (opcodeWord_and_mask _ f).trans rfl

theorem EncodesItsRow.ror (f : Fields) : EncodesItsRow.Statement (.ror f) := fun _ =>
  (opcodeWord_and_mask _ f).trans rfl

theorem EncodesItsRow.bswap (f : Fields) : EncodesItsRow.Statement (.bswap f) := fun _ =>
  (opcodeWord_and_mask _ f).trans rfl

theorem EncodesItsRow.asr (f : Fields) : EncodesItsRow.Statement (.asr f) := fun _ =>
  (opcodeWord_and_mask _ f).trans rfl

theorem EncodesItsRow.lsl (f : Fields) : EncodesItsRow.Statement (.lsl f) := fun _ =>
  (opcodeWord_and_mask _ f).trans rfl

theorem EncodesItsRow.lsr (f : Fields) : EncodesItsRow.Statement (.lsr f) := fun _ =>
  (opcodeWord_and_mask _ f).trans rfl

theorem EncodesItsRow.setip (f : Fields) : EncodesItsRow.Statement (.setip f) := fun _ =>
  (opcodeWord_and_mask _ f).trans rfl

theorem EncodesItsRow.addip (f : Fields) : EncodesItsRow.Statement (.addip f) := fun _ =>
  (opcodeWord_and_mask _ f).trans rfl

theorem EncodesItsRow.intr (f : Fields) : EncodesItsRow.Statement (.intr f) := fun _ =>
  (opcodeWord_and_mask _ f).trans rfl

theorem EncodesItsRow.reservedCmd1 (f : Fields) : EncodesItsRow.Statement (.reservedCmd1 f) := fun _ =>
  (opcodeWord_and_mask _ f).trans rfl

theorem EncodesItsRow.reservedCmd35 (f : Fields) : EncodesItsRow.Statement (.reservedCmd35 f) := fun _ =>
  (opcodeWord_and_mask _ f).trans rfl

/-- The masks of the rows that hold several commands look at the high bits of the command field only. -/
theorem opcodeWord_and_submask (c : BitVec 6) (f : Fields) (mask : Word) (h : 0xFE00#16 &&& mask = mask) :
    opcodeWord c f &&& mask = (0#1 ++ c ++ 0#9) &&& mask := by
  rw [← opcodeWord_and_mask c f, BitVec.and_assoc, h]

theorem EncodesItsRow.reservedCmd36to39 (c : BitVec 6) (f : Fields) :
    EncodesItsRow.Statement (.reservedCmd36to39 c f) := fun h =>
  have row : ∀ c : BitVec 6, 36 ≤ c.toNat ∧ c.toNat ≤ 39 → (0#1 ++ c ++ 0#9 : Word) &&& 0xF800#16 = 0x4800#16 := by decide
  (opcodeWord_and_submask c f 0xF800#16 (by decide)).trans (row c (of_decide_eq_true h))

theorem EncodesItsRow.reservedCmd40to47 (c : BitVec 6) (f : Fields) :
    EncodesItsRow.Statement (.reservedCmd40to47 c f) := fun h =>
  have row : ∀ c : BitVec 6, 40 ≤ c.toNat ∧ c.toNat ≤ 47 → (0#1 ++ c ++ 0#9 : Word) &&& 0xF000#16 = 0x5000#16 := by decide
  (opcodeWord_and_submask c f 0xF000#16 (by decide)).trans (row c (of_decide_eq_true h))

theorem EncodesItsRow.reservedCmd48to63 (c : BitVec 6) (f : Fields) :
    EncodesItsRow.Statement (.reservedCmd48to63 c f) := fun h =>
  have row : ∀ c : BitVec 6, 48 ≤ c.toNat → (0#1 ++ c ++ 0#9 : Word) &&& 0xE000#16 = 0x6000#16 := by decide
  (opcodeWord_and_submask c f 0xE000#16 (by decide)).trans (row c (of_decide_eq_true h))

theorem EncodesItsRow.reservedBit15 (w : Word) : EncodesItsRow.Statement (.reservedBit15 w) := by
  intro h
  apply BitVec.eq_of_getLsbD_eq
  intro i hi
  have hw : w.getLsbD 15 = true := h
  simp only [encodeWord, tableRow, BitVec.getLsbD_and]
  interval_cases i <;> simp [hw]

end Sys2Proof.Laws
end

