-- ==== Sys2Proof/Tests/Slice0.lean ====
section
/-! SUPPORT. The author's own tests: ill-formed terms refused, one hand-written word for every constructor, one step for
every instruction with the result the spec's own example gives, and for every statement with hypotheses a concrete
state that meets them. -/

namespace Sys2Proof.Tests

open Sys2Proof.Machine

/-! ### Helpers -/

/-- Always, both inputs Zero, nothing delivered. -/
def plainFields : Fields := ⟨.always, .zero, .zero, false, false⟩

/-- `[i0:imm] [i1:imm] [f:yes] [out:push]`. -/
def immFields : Fields := ⟨.always, .immediate, .immediate, true, true⟩

/-- `[i0:pop] [i1:pop] [f:yes] [out:push]`. -/
def popFields : Fields := ⟨.always, .pop, .pop, true, true⟩

/-- A Mark II after its reset and its first SPSET and BPSET, with IP = 0x0010, SP = 0x8000 and BP = 0x0000. -/
def start : State :=
  { State.reset with
    ir := 0x0000#16, ip := 0x0010#16, sp := 0x8000#16
    spUndefined := false, bpUndefined := false, ipUndefined := false }

/-- The same right after the reset: SP and BP undefined. -/
def fresh : State := { start with spUndefined := true, bpUndefined := true }

/-- The same as a Mark II-L. -/
def startMarkIIL : State := { start with cfg := Config.default .markIIL }

/-- Words stored one after another from an address on. -/
def place (a : Word) (ws : List Word) (s : State) : State :=
  match ws with
  | [] => s
  | w :: rest => place (a + 2#16) rest { s with mem := s.mem.writeWord a w }

/-- One step of the instruction `code` at IP, over the stack words `stack` at SP. -/
def runs (code stack : List Word) (s : State) : Option State :=
  match step (place s.ip code (place s.sp stack s)) with
  | .next t => some t
  | .fault _ | .refused _ => none

/-- The fault of one step. -/
def faults (code stack : List Word) (s : State) : Option Fault :=
  match step (place s.ip code (place s.sp stack s)) with
  | .fault r => some r
  | .next _ | .refused _ => none

/-- SP, the stack top and IP. -/
def topOf (t : State) : Word × Word × Word := (t.sp, t.mem.readWord t.sp, t.ip)

/-! ### Ill-formed terms -/

theorem test_wf_refuses_36to39 : (Instr.reservedCmd36to39 35#6 plainFields).WellFormed = false ∧
    (Instr.reservedCmd36to39 40#6 plainFields).WellFormed = false := by decide
theorem test_wf_refuses_40to47 : (Instr.reservedCmd40to47 39#6 plainFields).WellFormed = false ∧
    (Instr.reservedCmd40to47 48#6 plainFields).WellFormed = false := by decide
theorem test_wf_refuses_48to63 : (Instr.reservedCmd48to63 47#6 plainFields).WellFormed = false := by decide
theorem test_wf_refuses_bit15 : (Instr.reservedBit15 0x7FFF#16).WellFormed = false := by decide
theorem test_wf_refuses_missing_immediate :
    (Assembled.mk (.copy immFields) [0x0001#16]).WellFormed = false := by decide
theorem test_wf_refuses_extra_immediate :
    (Assembled.mk (.copy plainFields) [0x0001#16]).WellFormed = false := by decide

/-! ### Decoding: each word written out by hand, bit 15, cmd, out, flg, in1, in0, cond (30_encoding.md R80, R87) -/

theorem test_decode_movement :
    decodeWord 0b0000000001001001#16 = .copy ⟨.zero, .immediate, .peek, false, false⟩ ∧
    decodeWord 0b0000001011010100#16 = .reservedCmd1 ⟨.less, .peek, .peek, true, false⟩ ∧
    decodeWord 0b0000010001111111#16 = .get ⟨.overflow, .pop, .pop, false, false⟩ ∧
    decodeWord 0b0000011111100010#16 = .set ⟨.nonzero, .zero, .pop, true, true⟩ ∧
    decodeWord 0b0000100100001101#16 = .store8 ⟨.gequal, .immediate, .zero, false, true⟩ ∧
    decodeWord 0b0000101110010000#16 = .store16 ⟨.always, .peek, .zero, true, true⟩ ∧
    decodeWord 0b0000110000111011#16 = .load8 ⟨.greater, .pop, .immediate, false, false⟩ ∧
    decodeWord 0b0000111010100110#16 = .load16 ⟨.lequal, .zero, .immediate, true, false⟩ := by decide
theorem test_decode_system :
    decodeWord 0b0001000001001001#16 = .cpuid ⟨.zero, .immediate, .peek, false, false⟩ ∧
    decodeWord 0b0001001111010100#16 = .halt ⟨.less, .peek, .peek, true, true⟩ ∧
    decodeWord 0b0001010101111111#16 = .frget ⟨.overflow, .pop, .pop, false, true⟩ ∧
    decodeWord 0b0001011111100010#16 = .frset ⟨.nonzero, .zero, .pop, true, true⟩ ∧
    decodeWord 0b0001100000001101#16 = .bpget ⟨.gequal, .immediate, .zero, false, false⟩ ∧
    decodeWord 0b0001101010010000#16 = .bpset ⟨.always, .peek, .zero, true, false⟩ ∧
    decodeWord 0b0001110000111011#16 = .spget ⟨.greater, .pop, .immediate, false, false⟩ ∧
    decodeWord 0b0001111110100110#16 = .spset ⟨.lequal, .zero, .immediate, true, true⟩ := by decide
theorem test_decode_arithmetic :
    decodeWord 0b0010000101001001#16 = .add ⟨.zero, .immediate, .peek, false, true⟩ ∧
    decodeWord 0b0010001111010100#16 = .sub ⟨.less, .peek, .peek, true, true⟩ ∧
    decodeWord 0b0010010001111111#16 = .mul ⟨.overflow, .pop, .pop, false, false⟩ ∧
    decodeWord 0b0010011011100010#16 = .div ⟨.nonzero, .zero, .pop, true, false⟩ ∧
    decodeWord 0b0010100000001101#16 = .mod ⟨.gequal, .immediate, .zero, false, false⟩ := by decide
theorem test_decode_logic :
    decodeWord 0b0010101110010000#16 = .and ⟨.always, .peek, .zero, true, true⟩ ∧
    decodeWord 0b0010110100111011#16 = .or ⟨.greater, .pop, .immediate, false, true⟩ ∧
    decodeWord 0b0010111110100110#16 = .xor ⟨.lequal, .zero, .immediate, true, true⟩ ∧
    decodeWord 0b0011000001001001#16 = .not ⟨.zero, .immediate, .peek, false, false⟩ ∧
    decodeWord 0b0011001011010100#16 = .signext ⟨.less, .peek, .peek, true, false⟩ := by decide
theorem test_decode_shift :
    decodeWord 0b0011010001111111#16 = .rol ⟨.overflow, .pop, .pop, false, false⟩ ∧
    decodeWord 0b0011011111100010#16 = .ror ⟨.nonzero, .zero, .pop, true, true⟩ ∧
    decodeWord 0b0011100100001101#16 = .bswap ⟨.gequal, .immediate, .zero, false, true⟩ ∧
    decodeWord 0b0011101110010000#16 = .asr ⟨.always, .peek, .zero, true, true⟩ ∧
    decodeWord 0b0011110000111011#16 = .lsl ⟨.greater, .pop, .immediate, false, false⟩ ∧
    decodeWord 0b0011111010100110#16 = .lsr ⟨.lequal, .zero, .immediate, true, false⟩ := by decide
theorem test_decode_control :
    decodeWord 0b0100000001001001#16 = .setip ⟨.zero, .immediate, .peek, false, false⟩ ∧
    decodeWord 0b0100001111010100#16 = .addip ⟨.less, .peek, .peek, true, true⟩ ∧
    decodeWord 0b0100010101111111#16 = .intr ⟨.overflow, .pop, .pop, false, true⟩ ∧
    decodeWord 0b0100011111100010#16 = .reservedCmd35 ⟨.nonzero, .zero, .pop, true, true⟩ := by decide
theorem test_decode_reserved :
    decodeWord 0b0100100000000000#16 = .reservedCmd36to39 36#6 plainFields ∧
    decodeWord 0b0100111000000000#16 = .reservedCmd36to39 39#6 plainFields ∧
    decodeWord 0b0101000000000000#16 = .reservedCmd40to47 40#6 plainFields ∧
    decodeWord 0b0101111000000000#16 = .reservedCmd40to47 47#6 plainFields ∧
    decodeWord 0b0110000000000000#16 = .reservedCmd48to63 48#6 plainFields ∧
    decodeWord 0b0111111000000000#16 = .reservedCmd48to63 63#6 plainFields ∧
    decodeWord 0b1000000000000000#16 = .reservedBit15 0x8000#16 := by decide
/-- 30_encoding.md R90: `set [i0:imm] [i1:imm]`, the low byte of each word first, input0's word before input1's. -/
theorem test_decode_bytes :
    decode [0x28#8, 0x06#8, 0x02#8, 0x00#8, 0xEF#8, 0xBE#8, 0x55#8] =
      .ok (⟨.set ⟨.always, .immediate, .immediate, false, false⟩, [0x0002#16, 0xBEEF#16]⟩, [0x55#8]) := by decide
theorem test_decode_truncated :
    decode [0x28#8] = .error .truncatedOpcode ∧
    decode [0x28#8, 0x06#8, 0x02#8, 0x00#8, 0xEF#8] = .error .truncatedImmediate := by decide
theorem test_decodeTableWord : decodeTableWord 16 0x2600 = some (.div plainFields) := by decide
theorem test_withFetchWord :
    (match step (State.reset.withFetchWord 16 0x4400) with
      | .next t => some (t.ip, t.ir, t.mem)
      | .fault _ | .refused _ => none) = some (0x0002#16, 0x0000#16, [(1, 0x44#8)]) := by decide

/-! ### One step of every instruction: the examples of files 41 to 45 -/

/-- R141. -/
theorem test_copy :
    (runs [0x0108#16, 0x1234#16] [] start).map topOf = some (0x7FFE#16, 0x1234#16, 0x0014#16) := by decide
/-- R142. -/
theorem test_get :
    (runs [0x0508#16, 0x0002#16] [] (place 0x9004#16 [0xBEEF#16] { start with bp := 0x9000#16 })).map topOf =
      some (0x7FFE#16, 0xBEEF#16, 0x0014#16) := by decide
/-- R143. -/
theorem test_set :
    (runs [0x0668#16, 0xFFFF#16] [0x0042#16] { start with bp := 0x9000#16 }).map (fun t => (t.sp, t.mem.readWord 0x8FFE#16)) =
      some (0x8002#16, 0x0042#16) := by decide
/-- R144. -/
theorem test_store8 :
    (runs [0x0828#16, 0x12AB#16, 0x8001#16] [] start).map (fun t => (t.mem.readByte 0x8001, t.mem.readByte 0x8000)) =
      some (0xAB#8, 0x00#8) := by decide
/-- R145. -/
theorem test_store16 :
    (runs [0x0A78#16] [0xCAFE#16, 0x8000#16] { start with sp := 0x7000#16 }).map
      (fun t => (t.sp, t.mem.readByte 0x8000, t.mem.readByte 0x8001)) = some (0x7004#16, 0xFE#8, 0xCA#8) := by decide
/-- R146: the stack top at 0x8000 is 0xCAFE, so MEM8[0x8001] = 0xCA. -/
theorem test_load8 :
    (runs [0x0D08#16, 0x8001#16] [0xCAFE#16] start).map topOf = some (0x7FFE#16, 0x00CA#16, 0x0014#16) := by decide
/-- R147. -/
theorem test_load16 :
    (runs [0x0F08#16, 0x8000#16] [0xCAFE#16] start).map topOf = some (0x7FFE#16, 0xCAFE#16, 0x0014#16) := by decide
/-- R147: an odd address is undefined behaviour. -/
theorem test_load16_odd :
    faults [0x0F08#16, 0x8001#16] [] start = some (.misaligned 0x8001#16) := by decide
/-- R161. -/
theorem test_cpuid :
    (runs [0x1100#16] [0x1234#16] start).map topOf = some (0x7FFE#16, 0x0000#16, 0x0012#16) := by decide
/-- R161 with a non-zero input (decision D15). -/
theorem test_cpuid_input :
    faults [0x1008#16, 0x0001#16] [] start = some .cpuidInput := by decide
/-- R162. -/
theorem test_halt :
    (runs [0x1200#16] [] { start with ip := 0x0040#16 }).map (fun t => (t.ip, t.halted)) = some (0x0042#16, true) := by decide
/-- R127: nothing is fetched. -/
theorem test_halted_step :
    (runs [0x0108#16, 0x1234#16] [] { start with halted := true }).map (fun t => (t.ip, t.sp)) = some (0x0010#16, 0x8000#16) := by decide
/-- R163. -/
theorem test_frget :
    (runs [0x1520#16, 0xFFF0#16] [] { start with fr := 0x008D#16 }).map topOf = some (0x7FFE#16, 0x000D#16, 0x0014#16) := by decide
/-- R164. -/
theorem test_frset :
    (runs [0x1628#16, 0x0088#16, 0xFF77#16] [] { start with fr := 0x0005#16 }).map State.fr = some 0x008D#16 := by decide
/-- R164, R41. -/
theorem test_frset_reserved :
    faults [0x1608#16, 0x0100#16] [] start = some .reservedFlagBit := by decide
/-- R165. -/
theorem test_bpget :
    (runs [0x1900#16] [] { start with bp := 0x9000#16 }).map topOf = some (0x7FFE#16, 0x9000#16, 0x0012#16) := by decide
/-- R166. -/
theorem test_bpset :
    (runs [0x1B08#16, 0x7000#16] [] { start with bp := 0x9000#16 }).map (fun t => (t.bp, topOf t)) =
      some (0x7000#16, 0x7FFE#16, 0x9000#16, 0x0014#16) := by decide
/-- R167. -/
theorem test_spget :
    (runs [0x1D00#16] [] start).map topOf = some (0x7FFE#16, 0x8000#16, 0x0012#16) := by decide
/-- R168: the push goes through the new SP. -/
theorem test_spset :
    (runs [0x1F08#16, 0x9000#16] [] start).map topOf = some (0x8FFE#16, 0x8000#16, 0x0014#16) := by decide
/-- R181. -/
theorem test_add :
    (runs [0x21F8#16] [0xFFFF#16, 0x0001#16] start).map (fun t => (t.fr, topOf t)) =
      some (0x0005#16, 0x8002#16, 0x0000#16, 0x0012#16) := by decide
/-- R181: 0xFFFF + 0x0000 with C = 1 and CE = 1. -/
theorem test_add_carry_in :
    (runs [0x2128#16, 0xFFFF#16, 0x0000#16] [] { start with fr := 0x000C#16 }).map topOf = some (0x7FFE#16, 0x0000#16, 0x0016#16) := by decide
/-- R182. -/
theorem test_sub :
    (runs [0x23B8#16, 0x0005#16] [0x0003#16] start).map (fun t => (t.fr, topOf t)) =
      some (0x0006#16, 0x8000#16, 0xFFFE#16, 0x0014#16) := by decide
/-- R183. -/
theorem test_mul :
    (runs [0x2528#16, 0x0100#16, 0x0100#16] [] start).map (fun t => (t.fr, topOf t)) =
      some (0x0004#16, 0x7FFE#16, 0x0000#16, 0x0016#16) := by decide
/-- R184: -7 / 2 = -3. -/
theorem test_div :
    (runs [0x2728#16, 0xFFF9#16, 0x0002#16] [] start).map topOf = some (0x7FFE#16, 0xFFFD#16, 0x0016#16) := by decide
/-- R187: the output is dropped, ARITH is raised. -/
theorem test_div_by_zero :
    (runs [0x2600#16] [] { start with fr := 0x0010#16 }).map (fun t => (t.ir, t.ip)) =
      some (0x0010#16, 0x0012#16) := by decide
/-- R185: -7 % 2 = -1. -/
theorem test_mod :
    (runs [0x2928#16, 0xFFF9#16, 0x0002#16] [] start).map topOf = some (0x7FFE#16, 0xFFFF#16, 0x0016#16) := by decide
/-- R201. -/
theorem test_and :
    (runs [0x2B38#16, 0x00FF#16] [0x12F4#16] start).map topOf = some (0x8000#16, 0x00F4#16, 0x0014#16) := by decide
/-- R202. -/
theorem test_or :
    (runs [0x2D38#16, 0x0034#16] [0x1200#16] start).map topOf = some (0x8000#16, 0x1234#16, 0x0014#16) := by decide
/-- R203. -/
theorem test_xor :
    (runs [0x2F78#16] [0xFF00#16, 0x0FF0#16] start).map topOf = some (0x8002#16, 0xF0F0#16, 0x0012#16) := by decide
/-- R204. -/
theorem test_not :
    (runs [0x3108#16, 0x00FF#16] [] start).map topOf = some (0x7FFE#16, 0xFF00#16, 0x0014#16) := by decide
/-- R205. -/
theorem test_signext :
    (runs [0x3318#16] [0x0080#16] start).map topOf = some (0x8000#16, 0xFF80#16, 0x0012#16) := by decide
/-- R206. -/
theorem test_rol :
    (runs [0x3518#16] [0x8001#16] start).map topOf = some (0x8000#16, 0x0003#16, 0x0012#16) := by decide
/-- R207. -/
theorem test_ror :
    (runs [0x3718#16] [0x8001#16] start).map topOf = some (0x8000#16, 0xC000#16, 0x0012#16) := by decide
/-- R208. -/
theorem test_bswap :
    (runs [0x3918#16] [0x1234#16] start).map topOf = some (0x8000#16, 0x3412#16, 0x0012#16) := by decide
/-- R209. -/
theorem test_asr :
    (runs [0x3B18#16] [0x8002#16] start).map topOf = some (0x8000#16, 0xC001#16, 0x0012#16) := by decide
/-- R210. -/
theorem test_lsl :
    (runs [0x3D18#16] [0xC001#16] start).map topOf = some (0x8000#16, 0x8002#16, 0x0012#16) := by decide
/-- R211. -/
theorem test_lsr :
    (runs [0x3F18#16] [0x8003#16] start).map topOf = some (0x8000#16, 0x4001#16, 0x0012#16) := by decide
/-- R221. -/
theorem test_setip :
    (runs [0x4108#16, 0x0100#16] [] start).map topOf = some (0x7FFE#16, 0x0014#16, 0x0100#16) := by decide
/-- R222. -/
theorem test_addip :
    (runs [0x420A#16, 0xFFF0#16] [] { start with ip := 0x0030#16 }).map State.ip = some 0x0024#16 := by decide
/-- R222: with Z = 1 the instruction is ignored. -/
theorem test_addip_ignored :
    (runs [0x420A#16, 0xFFF0#16] [] { start with ip := 0x0030#16, fr := 0x0001#16 }).map State.ip = some 0x0034#16 := by decide
/-- R226. -/
theorem test_intr :
    (runs [0x4408#16, 0x0020#16] [] start).map (fun t => (t.ir, t.ip)) = some (0x0020#16, 0x0014#16) := by decide
/-- R226, decision D2. -/
theorem test_intr_markIIL :
    faults [0x4408#16, 0x0020#16] [] startMarkIIL = some .intrOnMarkIIL := by decide
/-- R82, R91. -/
theorem test_reserved :
    faults [0x0200#16] [] start = some .reservedCommand ∧ faults [0x4600#16] [] start = some .reservedCommand ∧
    faults [0x4800#16] [] start = some .reservedCommand ∧ faults [0x5000#16] [] start = some .reservedCommand ∧
    faults [0x6000#16] [] start = some .reservedCommand ∧ faults [0x8001#16] [] start = some .reservedBit15 := by decide
/-- R91: a reserved command whose condition is false is stepped over with its immediate. -/
theorem test_reserved_ignored :
    (runs [0x0209#16, 0x1234#16] [] start).map State.ip = some 0x0014#16 := by decide

/-! ### Interrupts and reset -/

/-- 60_exceptions.md R258, its example: IRQ and NMI at once. -/
def twoInterrupts : State :=
  place 0x000E#16 [0x0300#16] (place 0x0002#16 [0x0200#16]
    { start with ir := 0x0082#16, fr := 0x0080#16, ip := 0x0100#16 })

theorem test_two_interrupts :
    (match interruptPhase twoInterrupts with
      | .ok taken t => some (taken, t.ip, t.sp, t.ir, t.fr)
      | .busError _ | .fault _ => none) =
      some (true, 0x0200#16, 0x7FF8#16, 0x0000#16, 0x0000#16) := by decide
theorem test_two_interrupts_stack :
    (match interruptPhase twoInterrupts with
      | .ok _ t => [0x7FFE#16, 0x7FFC#16, 0x7FFA#16, 0x7FF8#16].map t.mem.readWord
      | .busError _ | .fault _ => []) = [0x0080#16, 0x0100#16, 0x0002#16, 0x0300#16] := by decide
/-- R261: the return from the IRQ handler of 0x0300 to 0x0100 sets FR[7] again. -/
theorem test_return_from_interrupt :
    (runs [0x4078#16] [0x0100#16, 0x0080#16] { start with ip := 0x0300#16 }).map (fun t => (t.ip, t.fr, t.sp)) =
      some (0x0100#16, 0x0080#16, 0x8004#16) := by decide
/-- R291: power-on; MEM16[0x0000] = 0x0040 is the entry point, where a COPY stands. -/
theorem test_power_on :
    (match step (place 0x0000#16 [0x0040#16] State.reset) with
      | .next t => some (t.ip, t.fr, t.ir, t.halted)
      | .fault _ | .refused _ => none) = some (0x0042#16, 0x0000#16, 0x0000#16, false) := by decide
/-- R292: a Mark II-L starts at 0x0000 itself; the word there, a COPY on condition Zero, is ignored. -/
theorem test_power_on_markIIL :
    (match step (place 0x0000#16 [0x0001#16] State.resetMarkIIL) with
      | .next t => some (t.ip, t.fr, t.events)
      | .fault _ | .refused _ => none) = some (0x0002#16, 0x0000#16, []) := by decide
/-- R254: a platform that answers the push with BUS; IP and SP are taken back. -/
theorem test_bus_error :
    (runs [0x0108#16, 0x1234#16] []
      { start with cfg := { start.cfg with busErrors := [⟨0x7FFE, 0x7FFE, 2, .write⟩] } }).map
      (fun t => (t.ip, t.sp, t.ir)) = some (0x0010#16, 0x8000#16, 0x0004#16) := by decide

/-- R254, R260: an NMI wakes a halted CPU, and the opcode fetch at its handler, then the push of its first instruction,
is answered with BUS: `halted` is 1 again, IP at the handler, BUS triggered. -/
theorem test_bus_error_after_wake :
    (runs [] [] { place 0x0002#16 [0x0200#16] start with
        ir := 0x0002#16, halted := true, cfg := { start.cfg with busErrors := [⟨0x0200, 0x0200, 2, .fetch⟩] } }).map
      (fun t => (t.halted, t.ip, t.ir)) = some (true, 0x0200#16, 0x0004#16) ∧
    (runs [] [] { place 0x0200#16 [0x0100#16] (place 0x0002#16 [0x0200#16] start) with
        ir := 0x0002#16, halted := true, cfg := { start.cfg with busErrors := [⟨0x7FFA, 0x7FFA, 2, .write⟩] } }).map
      (fun t => (t.halted, t.ip, t.sp, t.ir)) = some (true, 0x0200#16, 0x7FFC#16, 0x0004#16) := by decide
/-- R260: without the bus error the woken CPU runs the handler's first instruction. -/
theorem test_wake :
    (runs [] [] { place 0x0002#16 [0x0200#16] start with ir := 0x0002#16, halted := true }).map
      (fun t => (t.halted, t.ip)) = some (false, 0x0202#16) := by decide
/-- R39: after a reset SP and BP are no addresses until software writes them. -/
theorem test_undefined_stack :
    faults [0x0100#16] [] fresh = some (.undefinedAddress .sp) ∧
    faults [0x0018#16] [] fresh = some (.undefinedAddress .sp) ∧
    faults [0x0010#16] [] fresh = some (.undefinedAddress .sp) ∧
    faults [0x0400#16] [] fresh = some (.undefinedAddress .bp) ∧
    faults [0x0600#16] [] fresh = some (.undefinedAddress .bp) := by decide
/-- R295: `spset [i0:imm]` and `bpset [i0:imm]` make them addresses. -/
theorem test_first_spset :
    (runs [0x1E08#16, 0x9000#16] [] fresh).map (fun t => (t.sp, t.spUndefined, t.bpUndefined)) =
      some (0x9000#16, false, true) ∧
    (runs [0x1A08#16, 0x7000#16] [] fresh).map (fun t => (t.bp, t.spUndefined, t.bpUndefined)) =
      some (0x7000#16, true, false) := by decide
/-- R24, R39: a reset leaves BP and marks it undefined; a read of its value then draws. -/
theorem test_reset_keeps_bp :
    (∃ t, interruptPhase { start with bp := 0x7000#16, ir := 0x0001#16 } = .ok true t ∧
      t.bp = 0x7000#16 ∧ t.bpUndefined = true) ∧
    ∃ t, exec (.bpset plainFields) fresh = .next t ∧ t.draws = 1 ∧ t.bpUndefined = false :=
  ⟨⟨_, rfl, rfl, rfl⟩, _, rfl, rfl, rfl⟩
/-- R268: an NMI that arrives before the first SPSET. -/
theorem test_interrupt_before_spset :
    faults [0x0000#16] [] { fresh with ir := 0x0002#16 } = some (.undefinedAddress .sp) := by decide
/-- R292, V3: a Mark II-L whose run does not begin with RST. -/
theorem test_markIIL_without_reset :
    faults [0x0000#16] [] { State.resetMarkIIL with events := [] } = some (.undefinedAddress .ip) := by decide

/-! ### A witness for the hypotheses of every statement that has some -/

theorem witness_DecodeEncodeWord : (Instr.reservedCmd36to39 36#6 popFields).WellFormed = true ∧
    (Instr.reservedCmd40to47 47#6 popFields).WellFormed = true ∧
    (Instr.reservedCmd48to63 63#6 immFields).WellFormed = true ∧ (Instr.reservedBit15 0xFFFF#16).WellFormed = true ∧
    (Instr.setip immFields).WellFormed = true := by decide
theorem witness_DecodeEncodeBytes : (Assembled.mk (.set immFields) [0xFFFF#16, 0x8000#16]).WellFormed = true ∧
    (Assembled.mk (.halt plainFields) []).WellFormed = true := by decide
theorem witness_InstructionLength : (Instr.set immFields).fields? = some immFields ∧
    (Assembled.mk (.set immFields) [0xFFFF#16, 0x8000#16]).WellFormed = true ∧
    (0x0028#16 : Word).getLsbD 15 = false ∧ (0x7E2F#16 : Word).getLsbD 15 = false ∧
    (0x0028#16 : Word).extractLsb' 3 4 = (0x7E2F#16 : Word).extractLsb' 3 4 := by decide
theorem witness_ReservedPartition : (0x8000#16 : Word).getLsbD 15 = true ∧ (decodeWord 0x4400#16).isDefined = true ∧
    (decodeWord 0x4600#16).isDefined = false := by decide

/-- A memory with a byte at each end of the address space. -/
def twoBytes : Memory := [(0, 0x12#8), (65535, 0x34#8)]

theorem witness_LittleEndian : twoBytes.wf = true ∧ IsEven 0xFFFE#16 ∧ IsEven 0x0000#16 := by decide
theorem witness_WriteStoresItsBytesOnly : { start with mem := twoBytes }.Plain ∧
    { start with mem := twoBytes }.mem.wf = true ∧ IsEven 0xFFFE#16 ∧ ¬ IsEven 0xFFFF#16 := by decide
theorem witness_OddWordAccessFaults : ¬ IsEven 0xFFFF#16 ∧ ¬ IsEven 0x0001#16 ∧ fresh.spUndefined = true ∧
    State.resetMarkIIL.ipUndefined = true := by decide
theorem witness_EqualContentsEqualMemory : twoBytes.wf = true ∧ (Memory.writeByte twoBytes 7 unlistedByte).wf = true ∧
    ∀ x, (Memory.writeByte twoBytes 7 unlistedByte).readByte x = twoBytes.readByte x :=
  ⟨by decide, by decide, fun _ => rfl⟩

/-- A platform with a device at 0xFF00 to 0xFF0F and bus errors on every kind of access at 0x9000 to 0x90FF. -/
def busy : State :=
  { start with cfg := { start.cfg with
      devices := [⟨0xFF00, 0xFF0F⟩]
      busErrors := [⟨0x9000, 0x90FF, 2, .fetch⟩, ⟨0x9000, 0x90FF, 2, .read⟩, ⟨0x9000, 0x90FF, 1, .read⟩,
        ⟨0x9000, 0x90FF, 2, .write⟩, ⟨0x9000, 0x90FF, 1, .write⟩] } }

theorem witness_DeviceBytes : busy.isDevice (0xFF00#16 : Word).toNat = true ∧
    busy.isDevice (0xFF0F#16 : Word).toNat = true ∧ busy.busSignalled .read 1 0xFF0F#16 = false ∧
    busy.busSignalled .write 1 0xFF00#16 = false ∧
    IsEven 0xFF0E#16 ∧ busy.busSignalled .read 2 0xFF0E#16 = false ∧ busy.busSignalled .fetch 2 0xFF0E#16 = false ∧
    busy.busSignalled .write 2 0xFF0E#16 = false := by decide
theorem witness_ConditionTable : (0x00F2#16 : Word).extractLsb' 0 3 = (0x0012#16 : Word).extractLsb' 0 3 := by decide

/-- `[ex:zero] [i0:imm] [i1:pop]`, not executed while Z = 0. -/
def skippedFields : Fields := ⟨.zero, .immediate, .pop, true, true⟩

theorem witness_IgnoredInstruction : start.halted = false ∧ (Instr.reservedCmd35 skippedFields).fields? = some skippedFields ∧
    conditionHolds skippedFields.cond start.fr = false := by decide
theorem witness_InputsInOrder : Executes popFields start ∧ Executes immFields start ∧
    Executes ⟨.always, .peek, .pop, false, false⟩ { start with sp := 0xFFFE#16 } ∧
    Executes plainFields { fresh with ip := 0x0001#16, sp := 0x0001#16 } := by decide
theorem witness_FlagStage : popFields.flg = true ∧ plainFields.flg = false ∧ 2 ≤ 15 := by decide
theorem witness_PushThenPop : start.Plain ∧ start.mem.wf = true ∧ start.StackUsable ∧
    { start with sp := 0x0000#16 }.StackUsable := by decide
theorem witness_CopyResult : Executes popFields start ∧ CanPush popFields (afterInputs popFields start) := by decide
theorem witness_IndexedResults : Executes popFields start ∧ CanPush popFields (afterInputs popFields start) ∧
    start.BaseUsable ∧ { start with bp := 0xFFFE#16 }.BaseUsable := by decide
theorem witness_StoreResults : Executes immFields (place 0x0014#16 [0xFFFE#16] start) ∧
    CanPush immFields (afterInputs immFields (place 0x0014#16 [0xFFFE#16] start)) ∧
    operand1 immFields (place 0x0014#16 [0xFFFE#16] start) = 0xFFFE#16 ∧ IsEven 0xFFFE#16 := by decide
theorem witness_LoadResults : Executes immFields (place 0x0012#16 [0xFFFE#16] start) ∧
    CanPush immFields (afterInputs immFields (place 0x0012#16 [0xFFFE#16] start)) ∧
    operand0 immFields (place 0x0012#16 [0xFFFE#16] start) = 0xFFFE#16 ∧ IsEven 0xFFFE#16 := by decide
theorem witness_OddAddressCommandsFault : Executes immFields { start with bp := 0x0001#16 } ∧
    { start with bp := 0x0001#16 }.bpUndefined = false ∧ ¬ IsEven { start with bp := 0x0001#16 }.bp ∧
    Executes immFields fresh ∧ fresh.bpUndefined = true ∧
    Executes immFields (place 0x0012#16 [0xFFFF#16, 0x0001#16] start) ∧
    ¬ IsEven (operand0 immFields (place 0x0012#16 [0xFFFF#16, 0x0001#16] start)) ∧
    ¬ IsEven (operand1 immFields (place 0x0012#16 [0xFFFF#16, 0x0001#16] start)) := by decide
theorem witness_CpuidResult : Executes plainFields start ∧ CanPush plainFields (afterInputs plainFields start) ∧
    (operand0 plainFields start = 0x0000#16 ∧ operand1 plainFields start = 0x0000#16) ∧
    Executes immFields (place 0x0014#16 [0x0001#16] start) ∧
    CanPush immFields (afterInputs immFields (place 0x0014#16 [0x0001#16] start)) ∧
    ¬(operand0 immFields (place 0x0014#16 [0x0001#16] start) = 0x0000#16 ∧
      operand1 immFields (place 0x0014#16 [0x0001#16] start) = 0x0000#16) := by decide
theorem witness_HaltResult : Executes popFields start ∧ CanPush popFields (afterInputs popFields start) := by decide
theorem witness_FrgetResult : Executes immFields start ∧ CanPush immFields (afterInputs immFields start) := by decide
theorem witness_FrsetResult : Executes immFields (place 0x0012#16 [0x00FF#16] start) ∧
    CanPush immFields (afterInputs immFields (place 0x0012#16 [0x00FF#16] start)) ∧
    (0x00FF#16 : Word) &&& reservedFlags .markII = 0x0000#16 ∧
    Executes immFields (place 0x0012#16 [0x0100#16] start) ∧
    CanPush immFields (afterInputs immFields (place 0x0012#16 [0x0100#16] start)) ∧
    (operand0 immFields (place 0x0012#16 [0x0100#16] start) &&&
        ~~~(operand1 immFields (place 0x0012#16 [0x0100#16] start))) &&& reservedFlags .markII ≠ 0x0000#16 := by decide
theorem witness_BpResults : Executes popFields start ∧ CanPush popFields (afterInputs popFields start) ∧
    start.bpUndefined = false ∧ Executes popFields { start with bpUndefined := true } ∧
    CanPush popFields (afterInputs popFields { start with bpUndefined := true }) := by decide
theorem witness_SpResults : Executes popFields start ∧ CanPush popFields (afterInputs popFields start) ∧
    start.spUndefined = false ∧
    CanPush popFields { afterInputs popFields start with sp := operand0 popFields start } := by decide
theorem witness_SpResults_undefined : fresh.spUndefined = true ∧ Executes plainFields fresh ∧ CanPush plainFields (afterInputs plainFields fresh) ∧
    Executes immFields (place 0x0012#16 [0x9000#16] { fresh with sp := 0x7FFF#16 }) ∧
    CanPush immFields { afterInputs immFields (place 0x0012#16 [0x9000#16] { fresh with sp := 0x7FFF#16 }) with
      sp := operand0 immFields (place 0x0012#16 [0x9000#16] { fresh with sp := 0x7FFF#16 }), spUndefined := false
      draws := 1 } := by decide
theorem witness_AddResult : Executes popFields start ∧ CanPush popFields (afterInputs popFields start) ∧
    Executes popFields { start with fr := 0x000C#16 } := by decide
theorem witness_SubResult : Executes popFields start ∧ CanPush popFields (afterInputs popFields start) ∧
    Executes popFields { start with fr := 0x000C#16 } := by decide
theorem witness_MulResult : Executes popFields start ∧ CanPush popFields (afterInputs popFields start) ∧
    Executes popFields { start with cfg := { start.cfg with mulCarry := .signed } } := by decide

/-- Dividend 0x8000 and divisor 0xFFFF as immediates. -/
def overflowing : State := place 0x0012#16 [0x8000#16, 0xFFFF#16] start

theorem witness_DivModResults : Executes immFields overflowing ∧
    CanPush immFields (afterInputs immFields overflowing) ∧ operand1 immFields overflowing ≠ 0x0000#16 ∧
    operand0 immFields overflowing = 0x8000#16 ∧ operand1 immFields overflowing = 0xFFFF#16 ∧
    Executes immFields (place 0x0012#16 [0xFFF9#16, 0x0002#16] start) ∧
    operand1 immFields (place 0x0012#16 [0xFFF9#16, 0x0002#16] start) ≠ 0x0000#16 := by decide
theorem witness_DivisionLaw : (0xFFFF#16 : Word) ≠ 0x0000#16 ∧
    ¬((0x8001#16 : Word) = 0x8000#16 ∧ (0xFFFF#16 : Word) = 0xFFFF#16) := by decide
theorem witness_DivisionByZero : Executes immFields start ∧ CanPush immFields (afterInputs immFields start) ∧
    operand1 immFields start = 0x0000#16 ∧
    Executes immFields { start with fr := 0x0010#16 } ∧
    CanPush immFields (afterInputs immFields { start with fr := 0x0010#16 }) ∧
    operand1 immFields { start with fr := 0x0010#16 } = 0x0000#16 ∧
    { start with fr := 0x0010#16 }.cfg.variant = .markII ∧ { start with fr := 0x0010#16 }.fr.getLsbD 4 = true := by
  decide
theorem witness_LogicResults : Executes popFields start ∧ CanPush popFields (afterInputs popFields start) := by decide
theorem witness_ByteResults : Executes popFields start ∧ CanPush popFields (afterInputs popFields start) := by decide
theorem witness_ShiftResults : Executes popFields start ∧ CanPush popFields (afterInputs popFields start) := by decide
theorem witness_JumpResults : Executes immFields (place 0x0014#16 [0x00FF#16] start) ∧
    CanPush immFields (afterInputs immFields (place 0x0014#16 [0x00FF#16] start)) ∧
    (start.fr ||| operand1 immFields (place 0x0014#16 [0x00FF#16] start)) &&& reservedFlags .markII = 0x0000#16 ∧
    Executes immFields (place 0x0014#16 [0x0100#16] start) ∧
    (start.fr ||| operand1 immFields (place 0x0014#16 [0x0100#16] start)) &&& reservedFlags .markII ≠ 0x0000#16 := by
  decide
theorem witness_IntrResult : Executes immFields (place 0x0012#16 [0x00F7#16] start) ∧
    CanPush immFields (afterInputs immFields (place 0x0012#16 [0x00F7#16] start)) ∧
    start.cfg.variant = .markII ∧
    operand0 immFields (place 0x0012#16 [0x00F7#16] start) &&& 0xFF08#16 = 0x0000#16 ∧
    Executes immFields (place 0x0012#16 [0x0008#16] start) ∧
    operand0 immFields (place 0x0012#16 [0x0008#16] start) &&& 0xFF08#16 ≠ 0x0000#16 ∧
    Executes immFields startMarkIIL ∧ startMarkIIL.cfg.variant = .markIIL := by decide
theorem witness_ReservedEncodingsFault : conditionHolds plainFields.cond start.fr = true := by decide

/-- A command that completes on `start` is a witness for the statements about every next state. -/
theorem witness_next : exec (.copy plainFields) start = .next { start with ip := 0x0012#16 } := rfl

/-- A push at 0x7FFE is answered with BUS. -/
def pushRefused : State :=
  { start with cfg := { start.cfg with busErrors := [⟨0x7FFE, 0x7FFE, 2, .write⟩] } }

/-- `[out:push]`. -/
def pushFields : Fields := ⟨.always, .zero, .zero, false, true⟩

/-- A command that a bus error takes back. -/
theorem witness_taken_back : exec (.copy pushFields) pushRefused = .next { pushRefused with ir := 0x0004#16 } := rfl

/-- The same of the first instruction after a wake-up. -/
theorem witness_taken_back_woken : exec (.copy pushFields) { pushRefused with halted := true } =
    .next { pushRefused with halted := true, ir := 0x0004#16 } := rfl

/-- `div` by zero with ARITH enabled. -/
theorem witness_arith : exec (.div plainFields) { start with fr := 0x0010#16 } =
    .next { start with fr := 0x0010#16, ip := 0x0012#16, ir := 0x0010#16, draws := 1 } := rfl

theorem witness_UntouchedState : (∀ f, Instr.copy plainFields ≠ .bpset f) ∧ (∀ f, Instr.copy plainFields ≠ .halt f) ∧
    (∀ f, Instr.copy plainFields ≠ .spset f) ∧ (∃ t, exec (.copy plainFields) start = .next t) ∧
    (∃ t, exec (.copy pushFields) { pushRefused with halted := true } = .next t) ∧
    (∃ t, interruptPhase State.reset = .ok true t) ∧ ∃ t, interruptPhase { start with ir := 0x0002#16 } = .ok true t :=
  ⟨nofun, nofun, nofun, ⟨_, witness_next⟩, ⟨_, witness_taken_back_woken⟩, ⟨_, rfl⟩, _, rfl⟩
theorem witness_FlagWriters : (∀ f, Instr.copy plainFields ≠ .frset f ∧ Instr.copy plainFields ≠ .setip f ∧
      Instr.copy plainFields ≠ .addip f) ∧
    (∀ f, Instr.copy plainFields ≠ .add f ∧ Instr.copy plainFields ≠ .sub f ∧ Instr.copy plainFields ≠ .mul f) ∧
    (Instr.copy plainFields).fields? = some plainFields ∧ plainFields.flg = false ∧
    ∃ t, exec (.copy plainFields) start = .next t :=
  ⟨fun _ => ⟨nofun, nofun, nofun⟩, fun _ => ⟨nofun, nofun, nofun⟩, rfl, rfl, _, witness_next⟩
theorem witness_IpIsSequential : (Instr.copy plainFields).fields? = some plainFields ∧
    (∀ g, Instr.copy plainFields ≠ .setip g ∧ Instr.copy plainFields ≠ .addip g) ∧
    (∃ t, exec (.copy plainFields) start = .next t) ∧
    (Instr.copy pushFields).fields? = some pushFields ∧
    (∀ g, Instr.copy pushFields ≠ .setip g ∧ Instr.copy pushFields ≠ .addip g) ∧
    ∃ t, exec (.copy pushFields) pushRefused = .next t ∧ t.ip = pushRefused.ip :=
  ⟨rfl, fun _ => ⟨nofun, nofun⟩, ⟨_, witness_next⟩, rfl, fun _ => ⟨nofun, nofun⟩, _, witness_taken_back, rfl⟩
theorem witness_InterruptRegisterWriters : (∀ f, Instr.copy plainFields ≠ .intr f) ∧
    (∃ t, exec (.copy plainFields) start = .next t) ∧
    ((∀ f, Instr.div plainFields ≠ .intr f) ∧
      ∃ t, exec (.div plainFields) { start with fr := 0x0010#16 } = .next t ∧ t.ir = 0x0010#16) ∧
    (∀ f, Instr.copy pushFields ≠ .intr f) ∧
    ∃ t, exec (.copy pushFields) pushRefused = .next t ∧ t.ir = 0x0004#16 :=
  ⟨nofun, ⟨_, witness_next⟩, ⟨nofun, _, witness_arith, rfl⟩, nofun, _, witness_taken_back, rfl⟩
theorem witness_StackPointerMoves : (Instr.copy plainFields).fields? = some plainFields ∧
    (∀ g, Instr.copy plainFields ≠ .spset g) ∧ (∃ t, exec (.copy plainFields) start = .next t) ∧
    (Instr.copy pushFields).fields? = some pushFields ∧ (∀ g, Instr.copy pushFields ≠ .spset g) ∧
    ∃ t, exec (.copy pushFields) pushRefused = .next t ∧ t.sp = pushRefused.sp :=
  ⟨rfl, nofun, ⟨_, witness_next⟩, rfl, nofun, _, witness_taken_back, rfl⟩
theorem witness_StoresOnlyThere : (Instr.copy plainFields).fields? = some plainFields ∧
    (∃ t, exec (.copy plainFields) start = .next t) ∧
    storeAddresses (.copy popFields) popFields start = [0x8002, 0x8003] ∧
    0x8001 ∉ storeAddresses (.copy popFields) popFields start := ⟨rfl, ⟨_, witness_next⟩, by decide, by decide⟩
theorem witness_StepRunsDecoded : start.Plain ∧ start.NoEvent ∧ start.ir = 0x0000#16 ∧ start.halted = false ∧
    start.FetchUsable ∧ (Instr.copy plainFields).WellFormed = true ∧
    start.fetchMemory.readWord start.ip = encodeWord (.copy plainFields) := by decide
theorem witness_StepAfterInterrupts :
    (∃ t, interruptPhase twoInterrupts = .ok true t ∧ t.halted = false ∧ t.Plain ∧ t.FetchUsable ∧
      (Instr.copy plainFields).WellFormed = true ∧
      t.fetchMemory.readWord t.ip = encodeWord (.copy plainFields)) ∧
    ∃ t, interruptPhase { twoInterrupts with halted := true } = .ok true t ∧ t.halted = true ∧ t.Plain ∧
      t.FetchUsable ∧ t.fetchMemory.readWord t.ip = encodeWord (.copy plainFields) :=
  ⟨⟨_, rfl, by decide, by decide, by decide, by decide, by decide⟩,
    _, rfl, by decide, by decide, by decide, by decide⟩

/-- Halted, with IRQ triggered and masked. -/
def maskedIrq : State := { start with halted := true, ir := 0x0080#16 }

theorem masked_maskedIrq : ∀ k, k < 16 → (externalEvents maskedIrq).ir.getLsbD k = true →
    4 ≤ k ∧ maskedIrq.fr.getLsbD k = false := by decide
theorem witness_HaltedStep : maskedIrq.halted = true ∧ maskedIrq.cfg.variant = .markII ∧
    (∀ k, k < 16 → (externalEvents maskedIrq).ir.getLsbD k = true → 4 ≤ k ∧ maskedIrq.fr.getLsbD k = false) ∧
    { startMarkIIL with halted := true }.halted = true ∧
    (eventsNow { startMarkIIL with halted := true }).rst = false := ⟨rfl, rfl, masked_maskedIrq, rfl, rfl⟩
theorem witness_StepKeepsInv : start.Inv ∧ ∃ t, step start = .next t := ⟨by decide, _, rfl⟩

/-- All three pins signalled at once. -/
def allPins : State := { start with fr := 0x0080#16, events := [⟨true, true, true⟩] }

theorem witness_EventsRaise : allPins.cfg.variant = .markII ∧ (eventsNow allPins).irq = true := by decide
theorem witness_ResetSequence : allPins.cfg.variant = .markII ∧ allPins.Plain ∧
    (externalEvents allPins).ir.getLsbD 0 = true ∧ State.reset.Plain ∧
    (externalEvents State.reset).ir.getLsbD 0 = true := by decide
theorem witness_MarkIILReset : startMarkIIL.cfg.variant = .markIIL ∧ (eventsNow startMarkIIL).rst = false ∧
    (eventsNow State.resetMarkIIL).rst = true := by decide
theorem witness_InterruptEntry : 1 ≤ 7 ∧ start.Plain ∧ start.mem.wf = true ∧ start.StackUsable ∧
    fresh.spUndefined = true ∧ { start with sp := 0x0001#16 }.spUndefined = false ∧
    ¬ IsEven { start with sp := 0x0001#16 }.sp := by decide
theorem witness_PhaseEmptiesIr : maskedIrq.cfg.variant = .markII ∧
    (∃ t, interruptPhase twoInterrupts = .ok true t) ∧
    (∀ k, k < 16 → (externalEvents maskedIrq).ir.getLsbD k = true → 4 ≤ k ∧ maskedIrq.fr.getLsbD k = false) :=
  ⟨rfl, ⟨_, rfl⟩, masked_maskedIrq⟩
theorem witness_LowestInterruptFirst : twoInterrupts.cfg.variant = .markII ∧ twoInterrupts.Plain ∧
    twoInterrupts.StackUsable ∧ (externalEvents twoInterrupts).ir.getLsbD 0 = false ∧
    (externalEvents twoInterrupts).ir.getLsbD 1 = true ∧
    (∀ k, 1 ≤ k → k < 1 → (externalEvents twoInterrupts).ir.getLsbD k = true →
      4 ≤ k ∧ twoInterrupts.fr.getLsbD k = false) :=
  ⟨rfl, by decide, by decide, by decide, by decide, fun _ h1 h2 => absurd h2 (by omega)⟩
/-- ARITH triggered and masked below IRQ, triggered and enabled. -/
def maskedBelow : State := { start with ir := 0x0090#16, fr := 0x0080#16 }

theorem witness_LowestInterruptFirst_order : dueInterrupts (externalEvents twoInterrupts) = [7, 1] ∧
    dueInterrupts (externalEvents maskedBelow) = [7] ∧
    dueInterrupts (externalEvents { start with ir := 0x0010#16 }) = [] ∧
    { fresh with ir := 0x0002#16 }.spUndefined = true ∧ { fresh with ir := 0x0002#16 }.cfg.variant = .markII ∧
    (externalEvents { fresh with ir := 0x0002#16 }).ir.getLsbD 0 = false ∧
    dueInterrupts (externalEvents { fresh with ir := 0x0002#16 }) ≠ [] := by decide
theorem witness_LowestInterruptFirst_maskable : maskedBelow.cfg.variant = .markII ∧ maskedBelow.Plain ∧
    maskedBelow.StackUsable ∧ (externalEvents maskedBelow).ir.getLsbD 0 = false ∧
    (externalEvents maskedBelow).ir.getLsbD 7 = true ∧ maskedBelow.fr.getLsbD 7 = true ∧
    (∀ k, k < 7 → 1 ≤ k → (externalEvents maskedBelow).ir.getLsbD k = true →
      4 ≤ k ∧ maskedBelow.fr.getLsbD k = false) := by decide
theorem witness_ReturnUndoesEntry : start.Plain ∧ { start with fr := 0x0080#16 }.Inv ∧ start.cfg.variant = .markII ∧
    start.StackUsable ∧ { start with fr := 0x0080#16 }.fr.getLsbD 7 = true ∧
    ∃ t, enterInterrupt 7 { start with fr := 0x0080#16 } = .ok () t :=
  ⟨by decide, by decide, rfl, by decide, by decide, _, rfl⟩

/-- On `busy`: both inputs immediate, both 0x9000, an address answered with BUS. -/
def busyAccess : State := place 0x0012#16 [0x9000#16, 0x9000#16] busy

theorem witness_BusErrorTakesBack : conditionHolds immFields.cond busyAccess.fr = true ∧
    ∃ v u, inputStage immFields (passOpcode busyAccess) = .ok v u ∧ IsEven v.1 ∧ u.busSignalled .read 2 v.1 = true ∧
      u.busSignalled .read 1 v.1 = true ∧ IsEven v.2 ∧ u.busSignalled .write 2 v.2 = true ∧
      u.busSignalled .write 1 v.2 = true :=
  ⟨rfl, _, _, rfl, by decide, by decide, by decide, by decide, by decide, by decide⟩
/-- BP + 2 * 0x9000 = 0x9000, and a push at 0x9000. -/
theorem witness_BusErrorTakesBack_indexed :
    ∃ v u, inputStage immFields (passOpcode { busyAccess with bp := 0x7000#16, sp := 0x9002#16 }) = .ok v u ∧
      u.BaseUsable ∧ u.busSignalled .read 2 (indexedAddress u.bp v.1) = true ∧
      u.busSignalled .write 2 (indexedAddress u.bp v.1) = true ∧ immFields.out = true ∧ u.StackUsable ∧
      u.busSignalled .write 2 (u.sp - 2#16) = true ∧
      u.busSignalled .write 2 (pushSp (.copy immFields) v.1 u - 2#16) = true :=
  ⟨_, _, rfl, by decide, by decide, by decide, rfl, by decide, by decide, by decide⟩
theorem witness_BusErrorTakesBack_push : (Instr.copy pushFields).isDefined = true ∧
    (Instr.copy pushFields).fields? = some pushFields ∧ pushFields.out = true ∧
    (∃ v u, inputStage pushFields (passOpcode pushRefused) = .ok v u ∧
      u.busSignalled .write 2 (pushSp (.copy pushFields) v.1 u - 2#16) = true) ∧
    ∃ t, exec (.copy pushFields) pushRefused = .next t :=
  ⟨rfl, rfl, rfl, ⟨_, _, rfl, by decide⟩, _, witness_taken_back⟩
theorem witness_BusErrorInFrame : (Instr.copy popFields).isDefined = true ∧
    (Instr.copy popFields).fields? = some popFields ∧ conditionHolds popFields.cond busy.fr = true ∧
    (∃ u, inputStage popFields (passOpcode { busy with sp := 0x9000#16 }) = .busError u) ∧
    (∃ t, interruptPhase { busy with ip := 0x9000#16 } = .ok false t ∧ t.halted = false ∧ t.FetchUsable ∧
      t.busSignalled .fetch 2 t.ip = true) :=
  ⟨rfl, rfl, rfl, ⟨_, rfl⟩, _, rfl, by decide, by decide, by decide⟩

end Sys2Proof.Tests
end

section
/-! PROOFS. The statements of 10_state.md on what instructions, the interrupt phase and the whole step leave unchanged.
`CommandEffect` lists everything a command body can do to the state, `exec_next` everything an instruction can do; each
statement is read off these two. -/

namespace Sys2Proof.Machine

/-! ### What a command body can do -/

/-- Everything the body of instruction `i`, run in state `u`, can do to the state, one constructor for each kind of
effect. -/
inductive CommandEffect (i : Instr) (u : State) : State → Prop
  | draws (d : Nat) : CommandEffect i u { u with draws := d }
  | stores (m : Memory) (hm : u.mem.wf = true → m.wf = true) : CommandEffect i u { u with mem := m }
  | halts (d : Nat) (f : Fields) (hi : i = .halt f) : CommandEffect i u { u with draws := d, halted := true }
  | setsFlags (fr : Word) (f : Fields) (hi : i = .frset f) (hfr : fr &&& reservedFlags u.cfg.variant = 0x0000#16) :
      CommandEffect i u { u with fr := fr }
  | jumps (target fr : Word) (f : Fields) (hi : i = .setip f ∨ i = .addip f)
      (hfr : fr &&& reservedFlags u.cfg.variant = 0x0000#16) : CommandEffect i u { loadIP target u with fr := fr }
  | setsBase (bp : Word) (d : Nat) (f : Fields) (hi : i = .bpset f) :
      CommandEffect i u { u with bp := bp, bpUndefined := false, draws := d }
  | setsStack (sp : Word) (d : Nat) (f : Fields) (hi : i = .spset f) :
      CommandEffect i u { u with sp := sp, spUndefined := false, draws := d }
  | carries (c : Bool) (f : Fields) (hi : i = .add f ∨ i = .sub f ∨ i = .mul f) :
      CommandEffect i u { u with fr := writeC u.fr c }
  | dividesByZero (d : Nat) (f : Fields) (hi : i = .div f ∨ i = .mod f) :
      CommandEffect i u (raiseInterrupt 4 { u with draws := d })
  | triggers (bits : Word) (f : Fields) (hi : i = .intr f) (hv : u.cfg.variant = .markII)
      (hbits : bits &&& reservedInterrupts = 0x0000#16) : CommandEffect i u { u with ir := u.ir ||| bits }

namespace CommandEffect

variable {i : Instr} {u v : State}

/-- A body may leave the state as it is. -/
theorem unchanged (i : Instr) (u : State) : CommandEffect i u u := .draws u.draws

/-- A body may read a register as a value. -/
theorem readsRegister (i : Instr) (u : State) (undefined : Bool) (w : Word) :
    CommandEffect i u (registerValue undefined w u).2 := by
  obtain ⟨d, _, hd⟩ := registerValue_state undefined w u
  exact hd ▸ .draws d

theorem cfg_eq (h : CommandEffect i u v) : v.cfg = u.cfg := by cases h <;> simp

theorem events_eq (h : CommandEffect i u v) : v.events = u.events := by cases h <;> simp

theorem bp_eq (h : CommandEffect i u v) (hi : ∀ f, i ≠ .bpset f) : v.bp = u.bp ∧ v.bpUndefined = u.bpUndefined := by
  cases h with
  | setsBase _ _ f he => exact absurd he (hi f)
  | _ => simp

theorem sp_eq (h : CommandEffect i u v) (hi : ∀ f, i ≠ .spset f) : v.sp = u.sp ∧ v.spUndefined = u.spUndefined := by
  cases h with
  | setsStack _ _ f he => exact absurd he (hi f)
  | _ => simp

theorem ip_eq (h : CommandEffect i u v) (hi : ∀ f, i ≠ .setip f ∧ i ≠ .addip f) : v.ip = u.ip := by
  cases h with
  | jumps _ _ f he => exact (he.elim (hi f).1 (hi f).2).elim
  | _ => simp

theorem halted_eq (h : CommandEffect i u v) (hi : ∀ f, i ≠ .halt f) : v.halted = u.halted := by
  cases h with
  | halts _ f he => exact absurd he (hi f)
  | _ => simp

/-- No body makes a register undefined. -/
theorem undefined_of_undefined (h : CommandEffect i u v) :
    (v.bpUndefined = true → u.bpUndefined = true) ∧ (v.spUndefined = true → u.spUndefined = true) ∧
      (v.ipUndefined = true → u.ipUndefined = true) := by
  cases h <;> simp

/-- Only the commands that load FR write its bits from 3 on. -/
theorem fr_high (h : CommandEffect i u v) (hi : ∀ f, i ≠ .frset f ∧ i ≠ .setip f ∧ i ≠ .addip f) {k : Nat}
    (hk : 3 ≤ k) : v.fr.getLsbD k = u.fr.getLsbD k := by
  cases h with
  | setsFlags _ f he => exact absurd he (hi f).1
  | jumps _ _ f he => exact (he.elim (hi f).2.1 (hi f).2.2).elim
  | carries c => exact (getLsbD_writeBit u.fr 2 c k).trans (if_neg (by omega))
  | _ => simp

/-- Only those and the three that carry write FR at all. -/
theorem fr_eq (h : CommandEffect i u v) (hi : ∀ f, i ≠ .frset f ∧ i ≠ .setip f ∧ i ≠ .addip f)
    (hc : ∀ f, i ≠ .add f ∧ i ≠ .sub f ∧ i ≠ .mul f) : v.fr = u.fr := by
  cases h with
  | setsFlags _ f he => exact absurd he (hi f).1
  | jumps _ _ f he => exact (he.elim (hi f).2.1 (hi f).2.2).elim
  | carries _ f he => exact (he.elim (hc f).1 fun h => h.elim (hc f).2.1 (hc f).2.2).elim
  | _ => simp

/-- IR only gains bits. -/
theorem ir_mono (h : CommandEffect i u v) {k : Nat} (hk : u.ir.getLsbD k = true) : v.ir.getLsbD k = true := by
  cases h with
  | dividesByZero => simp only [raiseInterrupt_ir]; split <;> simp [hk]
  | triggers => simp [hk]
  | _ => simpa using hk

/-- What but INTR changes IR is a division by zero with ARITH enabled. -/
theorem ir_eq (h : CommandEffect i u v) (hi : ∀ f, i ≠ .intr f) :
    v.ir = u.ir ∨ (v.ir = u.ir ||| 0x0010#16 ∧ (∃ f, i = .div f ∨ i = .mod f) ∧ u.fr.getLsbD 4 = true) := by
  cases h with
  | triggers _ f he => exact absurd he (hi f)
  | dividesByZero d f he =>
    by_cases hraise : u.cfg.variant = .markII ∧ u.fr.getLsbD 4 = true
    · exact .inr ⟨by simp [hraise, bitMask], ⟨f, he⟩, hraise.2⟩
    · exact .inl (by rw [raiseInterrupt_ir, if_neg (by simpa using hraise)])
  | _ => exact .inl (by simp)

end CommandEffect

/-- A command body of instruction `i`: what it does if it answers a state is an effect of `i`, and it meets a bus error
on a Mark II only. -/
structure BodyMeets (i : Instr) (body : Word → Word → State → Res Word) : Prop where
  effect : ∀ {a b o : Word} {u v : State}, body a b u = .ok o v → CommandEffect i u v
  busError : ∀ {a b : Word} {u v : State}, body a b u = .busError v → u.cfg.variant = .markII

/-- An operation followed by nothing but its answer meets only the operation's bus errors. -/
theorem busError_of_bind_ok {α β : Type} {r : Res α} {g : α → State → β} {next : α → State → State} {t : State}
    (h : (r.bind fun a s => .ok (g a s) (next a s)) = .busError t) : r = .busError t := by
  cases r with
  | busError u => simpa using h
  | ok | fault => cases h

theorem memRead16_commandEffect {i : Instr} {a o : Word} {u v : State} (h : memRead16 a u = .ok o v) :
    CommandEffect i u v := by
  obtain ⟨_, d, _, rfl⟩ := memRead16_ok h
  exact .draws d

/-- SET and STORE16 store a word and answer another. -/
theorem storeWord_commandEffect {i : Instr} {a w o o' : Word} {u v : State}
    (h : (memWrite16 a w u).bind (fun _ s => .ok o s) = .ok o' v) : CommandEffect i u v := by
  obtain ⟨_, t, ht, h⟩ := bind_eq_ok h
  obtain ⟨_, m, rfl, _, hm⟩ := memWrite16_ok ht
  cases h
  exact .stores m hm

namespace BodyMeets

variable {i : Instr}

/-- A body that always answers. -/
theorem always (output : Word → Word → State → Word) (next : Word → Word → State → State)
    (h : ∀ a b u, CommandEffect i u (next a b u)) : BodyMeets i fun a b u => .ok (output a b u) (next a b u) where
  effect e := by cases e; exact h _ _ _
  busError e := by cases e

/-- A body that computes its output and leaves the state alone. -/
theorem computes (output : Word → Word → State → Word) : BodyMeets i fun a b u => .ok (output a b u) u :=
  always output (fun _ _ u => u) fun _ _ u => .unchanged i u

theorem get : BodyMeets i fun a _ u => (addressIn .bp u).bind fun bp s => memRead16 (indexedAddress bp a) s where
  effect h := by
    have hread := through_ok h
    exact memRead16_commandEffect hread
  busError h := by
    have hread := through_busError h
    exact (memRead16_busError hread).1

theorem set : BodyMeets i fun a b u => (addressIn .bp u).bind fun bp s =>
    (memWrite16 (indexedAddress bp a) b s).bind fun _ s => .ok b s where
  effect h := storeWord_commandEffect (through_ok h)
  busError h := by
    have hstore := through_busError h
    exact (memWrite16_busError (busError_of_bind_ok hstore)).1

theorem store8 : BodyMeets i fun a b u => (memWrite8 b a u).bind fun _ s => .ok (a &&& 0x00FF#16) s where
  effect h := by
    obtain ⟨_, t, ht, h⟩ := bind_eq_ok h
    obtain ⟨m, rfl, _, hm⟩ := memWrite8_ok ht
    cases h
    exact .stores m hm
  busError h := (memWrite8_busError (busError_of_bind_ok h)).1

theorem store16 : BodyMeets i fun a b u => (memWrite16 b a u).bind fun _ s => .ok a s where
  effect h := storeWord_commandEffect h
  busError h := (memWrite16_busError (busError_of_bind_ok h)).1

theorem load8 : BodyMeets i fun a _ u => (memRead8 a u).bind fun v s => .ok (v.setWidth 16) s where
  effect h := by
    obtain ⟨_, t, ht, h⟩ := bind_eq_ok h
    obtain ⟨d, _, rfl⟩ := memRead8_ok ht
    cases h
    exact .draws d
  busError h := (memRead8_busError (busError_of_bind_ok h)).1

theorem load16 : BodyMeets i fun a _ u => memRead16 a u where
  effect h := memRead16_commandEffect h
  busError h := (memRead16_busError h).1

theorem cpuid : BodyMeets i fun a b u =>
    if a = 0x0000#16 ∧ b = 0x0000#16 then .ok 0x0000#16 u else .fault .cpuidInput where
  effect h := by
    split at h <;> cases h
    exact .unchanged i _
  busError h := by split at h <;> cases h

theorem frset {f : Fields} (hi : i = .frset f) : BodyMeets i fun a b u =>
    (writeFR ((a &&& ~~~b) ||| (u.fr &&& b)) u).bind fun _ t => .ok u.fr t where
  effect h := by
    obtain ⟨_, t, ht, h⟩ := bind_eq_ok h
    obtain ⟨hfr, rfl⟩ := writeFR_ok ht
    cases h
    exact .setsFlags _ f hi hfr
  busError h := by
    unfold writeFR at h
    split at h <;> cases h

/-- SETIP and ADDIP differ in the target. -/
theorem jump {f : Fields} (hi : i = .setip f ∨ i = .addip f) (target : Word → State → Word) :
    BodyMeets i fun a b u => (jumpSettingFlags (target a u) b u).bind fun _ t => .ok u.ip t where
  effect h := by
    obtain ⟨_, t, ht, h⟩ := bind_eq_ok h
    obtain ⟨hfr, rfl⟩ := jumpSettingFlags_ok ht
    cases h
    exact .jumps _ _ f hi hfr
  busError h := by
    unfold jumpSettingFlags writeFR at h
    split at h <;> cases h

/-- DIV and MOD differ in the word they compute for a divisor that is not 0. -/
theorem divide {f : Fields} (hi : i = .div f ∨ i = .mod f) (result : Config → Word → Word → Word) :
    BodyMeets i fun a b u => if b = 0x0000#16 then divideByZero u else .ok (result u.cfg a b) u where
  effect h := by
    split at h <;> cases h
    · exact .dividesByZero _ f hi
    · exact .unchanged i _
  busError h := by split at h <;> cases h

theorem intr {f : Fields} (hi : i = .intr f) : BodyMeets i fun a _ u =>
    if u.cfg.variant = .markIIL then .fault .intrOnMarkIIL
    else if a &&& reservedInterrupts = 0x0000#16 then .ok a { u with ir := u.ir ||| a }
    else .fault .reservedInterruptBit where
  effect {_ _ _ u _} h := by
    split at h
    · cases h
    · next hv =>
      split at h
      · next hbits =>
        cases h
        have hII : u.cfg.variant = .markII := by cases hu : u.cfg.variant <;> simp_all
        exact .triggers _ f hi hII hbits
      · cases h
  busError h := by
    split at h
    · cases h
    · split at h <;> cases h

end BodyMeets

/-- Every defined instruction is its fields' frame around a body of its own effects. -/
theorem exec_defined (i : Instr) (hi : i.isDefined = true) :
    ∃ f body, i.fields? = some f ∧ (∀ s, exec i s = runCommand f body s) ∧ BodyMeets i body := by
  cases i with
  | copy f => exact ⟨f, _, rfl, fun _ => rfl, .computes fun a _ _ => a⟩
  | get f => exact ⟨f, _, rfl, fun _ => rfl, .get⟩
  | set f => exact ⟨f, _, rfl, fun _ => rfl, .set⟩
  | store8 f => exact ⟨f, _, rfl, fun _ => rfl, .store8⟩
  | store16 f => exact ⟨f, _, rfl, fun _ => rfl, .store16⟩
  | load8 f => exact ⟨f, _, rfl, fun _ => rfl, .load8⟩
  | load16 f => exact ⟨f, _, rfl, fun _ => rfl, .load16⟩
  | cpuid f => exact ⟨f, _, rfl, fun _ => rfl, .cpuid⟩
  | halt f => exact ⟨f, _, rfl, fun _ => rfl, .always _ _ fun _ _ _ => .halts _ f rfl⟩
  | frget f => exact ⟨f, _, rfl, fun _ => rfl, .computes fun _ b u => u.fr &&& ~~~b⟩
  | frset f => exact ⟨f, _, rfl, fun _ => rfl, .frset rfl⟩
  | bpget f => exact ⟨f, _, rfl, fun _ => rfl, .always _ _ fun _ _ u => .readsRegister _ u _ _⟩
  | bpset f =>
    refine ⟨f, _, rfl, fun _ => rfl, .always _ _ fun a _ u => ?_⟩
    obtain ⟨d, _, hd⟩ := registerValue_state u.bpUndefined u.bp u
    exact hd ▸ .setsBase a d f rfl
  | spget f => exact ⟨f, _, rfl, fun _ => rfl, .always _ _ fun _ _ u => .readsRegister _ u _ _⟩
  | spset f =>
    refine ⟨f, _, rfl, fun _ => rfl, .always _ _ fun a _ u => ?_⟩
    obtain ⟨d, _, hd⟩ := registerValue_state u.spUndefined u.sp u
    exact hd ▸ .setsStack a d f rfl
  | add f => exact ⟨f, _, rfl, fun _ => rfl, .always _ _ fun _ _ _ => .carries _ f (.inl rfl)⟩
  | sub f => exact ⟨f, _, rfl, fun _ => rfl, .always _ _ fun _ _ _ => .carries _ f (.inr (.inl rfl))⟩
  | mul f => exact ⟨f, _, rfl, fun _ => rfl, .always _ _ fun _ _ _ => .carries _ f (.inr (.inr rfl))⟩
  | div f => exact ⟨f, _, rfl, fun _ => rfl, .divide (.inl rfl) divQuotient⟩
  | mod f => exact ⟨f, _, rfl, fun _ => rfl, .divide (.inr rfl) modRemainder⟩
  | and f => exact ⟨f, _, rfl, fun _ => rfl, .computes _⟩
  | or f => exact ⟨f, _, rfl, fun _ => rfl, .computes _⟩
  | xor f => exact ⟨f, _, rfl, fun _ => rfl, .computes _⟩
  | not f => exact ⟨f, _, rfl, fun _ => rfl, .computes _⟩
  | signext f => exact ⟨f, _, rfl, fun _ => rfl, .computes _⟩
  | rol f => exact ⟨f, _, rfl, fun _ => rfl, .computes _⟩
  | ror f => exact ⟨f, _, rfl, fun _ => rfl, .computes _⟩
  | bswap f => exact ⟨f, _, rfl, fun _ => rfl, .computes _⟩
  | asr f => exact ⟨f, _, rfl, fun _ => rfl, .computes _⟩
  | lsl f => exact ⟨f, _, rfl, fun _ => rfl, .computes _⟩
  | lsr f => exact ⟨f, _, rfl, fun _ => rfl, .computes _⟩
  | setip f => exact ⟨f, _, rfl, fun _ => rfl, .jump (.inl rfl) fun a _ => a⟩
  | addip f => exact ⟨f, _, rfl, fun _ => rfl, .jump (.inr rfl) fun a u => u.ip + a⟩
  | intr f => exact ⟨f, _, rfl, fun _ => rfl, .intr rfl⟩
  | reservedCmd1 | reservedCmd35 | reservedCmd36to39 | reservedCmd40to47 | reservedCmd48to63 | reservedBit15 => cases hi

/-- An instruction that is not defined answers a next state only as a reserved command. -/
theorem exec_undefined {i : Instr} {s t : State} (hi : i.isDefined = false) (h : exec i s = .next t) :
    ∃ f, i.fields? = some f ∧ runReserved f s = .next t := by
  cases i with
  | reservedCmd1 f | reservedCmd35 f | reservedCmd36to39 _ f | reservedCmd40to47 _ f | reservedCmd48to63 _ f =>
    exact ⟨f, rfl, h⟩
  | reservedBit15 => cases h
  | _ => cases hi

/-! ### Bus errors of the stages -/

theorem push_busError {w : Word} {s t : State} (h : push w s = .busError t) : s.cfg.variant = .markII :=
  (memWrite16_busError (s := { s with sp := s.sp - 2#16 })
    (through_busError (r := .sp) (k := fun sp u => memWrite16 (sp - 2#16) w { u with sp := sp - 2#16 }) h)).1

theorem outputStage_busError {f : Fields} {o : Word} {s t : State} (h : outputStage f o s = .busError t) :
    s.cfg.variant = .markII := by
  unfold outputStage at h
  split at h
  · exact push_busError h
  · cases h

theorem fetchInput_busError {m : Mode} {s t : State} (h : fetchInput m s = .busError t) : s.cfg.variant = .markII := by
  cases m with
  | zero => cases h
  | immediate => exact (memFetch_busError (through_busError (busError_of_bind_ok h))).1
  | peek => exact (memRead16_busError (through_busError h)).1
  | pop => exact (memRead16_busError (through_busError (busError_of_bind_ok h))).1

theorem inputStage_busError {f : Fields} {s t : State} (h : inputStage f s = .busError t) :
    s.cfg.variant = .markII := by
  obtain h | ⟨_, _, hu, h⟩ := bind_eq_busError h
  · exact fetchInput_busError h
  · obtain ⟨_, _, rfl⟩ := fetchInput_ok hu
    have hv := fetchInput_busError (busError_of_bind_ok h)
    exact hv

theorem executeStages_busError {i : Instr} {f : Fields} {body : Word → Word → State → Res Word} {s t : State}
    (hbody : BodyMeets i body) (h : executeStages f body s = .busError t) : s.cfg.variant = .markII := by
  obtain h | ⟨_, u, hu, h⟩ := bind_eq_busError h
  · exact inputStage_busError h
  obtain ⟨_, _, rfl⟩ := inputStage_ok hu
  obtain h | ⟨_, v, hv, h⟩ := bind_eq_busError h
  · have hv := hbody.busError h
    exact hv
  have hcfg : v.cfg = s.cfg := (hbody.effect hv).cfg_eq
  exact hcfg ▸ outputStage_busError (busError_of_bind_ok h)

/-! ### What an instruction can do -/

/-- A bus error took the whole instruction back (60_exceptions.md R254): BUS is triggered, and what was drawn stays
drawn. -/
def TakenBack (s t : State) : Prop :=
  s.cfg.variant = .markII ∧ ∃ d, t = { s with ir := s.ir ||| 0x0004#16, draws := d }

theorem rollback_takenBack {s : State} (hv : s.cfg.variant = .markII) (u : State) : TakenBack s (rollback s u) :=
  ⟨hv, u.draws, by simp [rollback, raiseInterrupt, hv, bitMask]⟩

/-- The form in which the statements say it. -/
theorem TakenBack.eq {s t : State} (h : TakenBack s t) :
    s.cfg.variant = .markII ∧ t = { s with ir := s.ir ||| 0x0004#16, draws := t.draws } := by
  obtain ⟨hv, d, rfl⟩ := h
  exact ⟨hv, rfl⟩

/-- The state in which the command body of an executed instruction runs, on any platform: its inputs may have been
drawn. -/
def beforeBody (f : Fields) (s : State) (d : Nat) : State := { afterInputs f s with halted := false, draws := d }

/-- The instruction went through all its stages: the command had its effect, the output may have been pushed, and Z
and N taken from it. -/
structure Completed (i : Instr) (f : Fields) (s t : State) : Prop where
  condition : conditionHolds f.cond s.fr = true
  stages : ∃ (d : Nat) (u : State) (output : Word) (m : Memory), CommandEffect i (beforeBody f s d) u ∧
    (u.mem.wf = true → m.wf = true) ∧
    t = { u with sp := u.sp - (if f.out = true then 2#16 else 0#16), mem := m
                 fr := if f.flg = true then writeZN u.fr output else u.fr }

/-- The output and flag stages move SP, store in memory and write FR. -/
theorem outputStage_flagStage {f : Fields} {o : Word} {u v : State} (h : outputStage f o u = .ok () v) :
    ∃ m : Memory, (u.mem.wf = true → m.wf = true) ∧
      flagStage f o v = { u with sp := u.sp - (if f.out = true then 2#16 else 0#16), mem := m
                                 fr := if f.flg = true then writeZN u.fr o else u.fr } := by
  obtain ⟨hout, rfl⟩ | ⟨hout, _, m, rfl, _, hm⟩ := outputStage_ok h
  · exact ⟨v.mem, id, by cases hf : f.flg <;> simp [flagStage, hf, hout]⟩
  · exact ⟨m, hm, by cases hf : f.flg <;> simp [flagStage, hf, hout]⟩

/-- Everything an instruction can do if it answers a next state, on any platform: be ignored, be taken back by a bus
error, or complete. -/
theorem exec_next {i : Instr} {s t : State} (h : exec i s = .next t) :
    ∃ f, i.fields? = some f ∧
      ((conditionHolds f.cond s.fr = false ∧ t = ignore f s) ∨ TakenBack s t ∨ Completed i f s t) := by
  cases hi : i.isDefined with
  | false =>
    obtain ⟨f, hf, hr⟩ := exec_undefined hi h
    exact ⟨f, hf, .inl (runReserved_next hr)⟩
  | true =>
    obtain ⟨f, body, hf, hexec, hbody⟩ := exec_defined i hi
    refine ⟨f, hf, ?_⟩
    rw [hexec s] at h
    obtain hign | ⟨_, u, hu, rfl⟩ | ⟨hc, inputs, s1, o, u, s3, h1, h2, h3, rfl⟩ := runCommand_next h
    · exact .inl hign
    · exact .inr (.inl (rollback_takenBack (s := s) (executeStages_busError (s := passOpcode s) hbody hu) u))
    · obtain ⟨d, _, rfl⟩ := inputStage_ok h1
      obtain ⟨m, hm, hflag⟩ := outputStage_flagStage h3
      exact .inr (.inr ⟨hc, d, u, o, m, hbody.effect h2, hm, hflag⟩)

/-- `exec_next` for an instruction whose fields are known. -/
theorem exec_next_of_fields {i : Instr} {f : Fields} {s t : State} (hf : i.fields? = some f) (h : exec i s = .next t) :
    (conditionHolds f.cond s.fr = false ∧ t = ignore f s) ∨ TakenBack s t ∨ Completed i f s t := by
  obtain ⟨g, hg, h⟩ := exec_next h
  cases hf.symm.trans hg
  exact h

/-! ### The interrupt phase -/

/-- What the interrupt phase keeps from `s` to `t`: BP, the parameters, code memory and canonical memory are kept, FR
and IR gain no bit. -/
structure PhaseKeeps (s t : State) : Prop where
  bp : t.bp = s.bp
  cfg : t.cfg = s.cfg
  code : t.code = s.code
  mem : s.mem.wf = true → t.mem.wf = true
  fr : ∀ k, t.fr.getLsbD k = true → s.fr.getLsbD k = true
  ir : ∀ k, t.ir.getLsbD k = true → s.ir.getLsbD k = true

theorem servicePhase_keeps {s t : State} {taken : Bool} (h : servicePhase s = .ok taken t) : PhaseKeeps s t := by
  unfold servicePhase at h
  split at h
  · obtain ⟨_, u, hu, h⟩ := bind_eq_ok h
    obtain ⟨ip, d, rfl⟩ := takeReset_ok hu
    cases h
    exact ⟨rfl, rfl, rfl, id, by simp, by simp⟩
  · obtain ⟨m, sp, ip, fr, ir, d, unset, rfl, hm, hfr, hir, _⟩ := serviceInterrupts_ok h
    exact ⟨rfl, rfl, rfl, hm, hfr, fun k hk => (Bool.and_eq_true_iff.mp ((hir k).symm.trans hk)).1⟩

theorem resetPhaseMarkIIL_keeps (s : State) : PhaseKeeps s (resetPhaseMarkIIL s) := by
  unfold resetPhaseMarkIIL
  split
  · exact ⟨rfl, rfl, rfl, id, by simp, fun _ => id⟩
  · exact ⟨rfl, rfl, rfl, id, fun _ => id, fun _ => id⟩

/-- The phase of a Mark II starts with its events; that of a Mark II-L has none to raise. -/
theorem interruptPhase_keeps {s t : State} {taken : Bool} (h : interruptPhase s = .ok taken t) :
    PhaseKeeps s t ∨ PhaseKeeps (externalEvents s) t := by
  unfold interruptPhase at h
  split at h
  · cases h
    exact .inl (resetPhaseMarkIIL_keeps s)
  · split at h
    · next hphase =>
      cases h
      exact .inr (servicePhase_keeps hphase)
    · cases h
    · cases h

/-! ### The invariant -/

theorem getLsbD_of_and_eq_zero {w mask : Word} (h : w &&& mask = 0x0000#16) {k : Nat} (hk : mask.getLsbD k = true) :
    w.getLsbD k = false := by
  have hbit : (w &&& mask).getLsbD k = false := by rw [h, BitVec.getLsbD_zero]
  simpa [hk] using hbit

/-- A word whose bits under a mask were all there before has none under it if there was none before. -/
theorem and_eq_zero_of_bits {w w' mask : Word} (h : w &&& mask = 0x0000#16)
    (hbits : ∀ k, mask.getLsbD k = true → w'.getLsbD k = true → w.getLsbD k = true) : w' &&& mask = 0x0000#16 := by
  apply BitVec.eq_of_getLsbD_eq
  intro k _
  rw [BitVec.getLsbD_and, BitVec.getLsbD_zero, Bool.and_eq_false_iff, or_iff_not_imp_right, Bool.not_eq_false]
  intro hk
  by_contra hw
  exact absurd (hbits k hk (by simpa using hw)) (by simp [getLsbD_of_and_eq_zero h hk])

/-- The flags Z, N, C and CE are never reserved. -/
theorem reservedFlags_low {v : Variant} {k : Nat} (h : (reservedFlags v).getLsbD k = true) : 4 ≤ k := by
  by_contra hk
  have hlow : k < 4 := by omega
  cases v <;> interval_cases k <;> cases h

/-- A flag write keeps the reserved bits of FR at 0. -/
theorem writeBit_reservedFlags {v : Variant} {fr : Word} {k : Nat} {b : Bool} (hk : k < 4)
    (h : fr &&& reservedFlags v = 0x0000#16) : writeBit fr k b &&& reservedFlags v = 0x0000#16 := by
  refine and_eq_zero_of_bits h fun j hj hw => ?_
  have hlow := reservedFlags_low hj
  rwa [getLsbD_writeBit, if_neg (by omega)] at hw

theorem writeZN_reservedFlags {v : Variant} {fr : Word} (output : Word) (h : fr &&& reservedFlags v = 0x0000#16) :
    writeZN fr output &&& reservedFlags v = 0x0000#16 :=
  writeBit_reservedFlags (by decide) (writeBit_reservedFlags (by decide) h)

/-- Triggering interrupts that are not reserved keeps the invariant of a Mark II. -/
theorem trigger_keeps_inv {s : State} {bits : Word} (hv : s.cfg.variant = .markII)
    (hbits : bits &&& reservedInterrupts = 0x0000#16) (h : s.Inv) : { s with ir := s.ir ||| bits }.Inv := by
  obtain ⟨hm, hc, hfr, hir⟩ := h
  refine ⟨hm, hc, hfr, ?_⟩
  rw [hv] at hir
  show (s.ir ||| bits) &&& idleInterrupts s.cfg.variant = 0x0000#16
  rw [hv]
  refine and_eq_zero_of_bits hir fun k hk hw => ?_
  have hnew : bits.getLsbD k = false := getLsbD_of_and_eq_zero hbits hk
  simpa [hnew] using hw

theorem raiseInterrupt_keeps_inv {s : State} {k : Nat} (hk : bitMask k &&& reservedInterrupts = 0x0000#16)
    (h : s.Inv) : (raiseInterrupt k s).Inv := by
  unfold raiseInterrupt
  split
  · next hv => exact trigger_keeps_inv hv.1 hk h
  · exact h

/-- A pin raises its interrupt if it is signalled. -/
theorem raise_if_keeps_inv (signalled : Bool) {s : State} {k : Nat}
    (hk : bitMask k &&& reservedInterrupts = 0x0000#16) (h : s.Inv) :
    (if signalled then raiseInterrupt k s else s).Inv := by
  split
  · exact raiseInterrupt_keeps_inv hk h
  · exact h

theorem externalEvents_keeps_inv {s : State} (h : s.Inv) : (externalEvents s).Inv := by
  have hdrop : (dropEvents s).Inv := h
  have hrst := raise_if_keeps_inv (eventsNow s).rst (k := 0) (by decide) hdrop
  have hnmi := raise_if_keeps_inv (eventsNow s).nmi (k := 1) (by decide) hrst
  exact raise_if_keeps_inv (eventsNow s).irq (by decide) hnmi

theorem PhaseKeeps.inv {s t : State} (hk : PhaseKeeps s t) (h : s.Inv) : t.Inv := by
  obtain ⟨hm, hc, hfr, hir⟩ := h
  refine ⟨hk.mem hm, hk.code ▸ hc, ?_, ?_⟩
  · rw [hk.cfg]
    exact and_eq_zero_of_bits hfr fun k _ => hk.fr k
  · rw [hk.cfg]
    exact and_eq_zero_of_bits hir fun k _ => hk.ir k

theorem interruptPhase_keeps_inv {s t : State} {taken : Bool} (h : interruptPhase s = .ok taken t) (hs : s.Inv) :
    t.Inv :=
  (interruptPhase_keeps h).elim (·.inv hs) (·.inv (externalEvents_keeps_inv hs))

theorem CommandEffect.keeps_inv {i : Instr} {u v : State} (h : CommandEffect i u v) (hu : u.Inv) : v.Inv := by
  have ⟨hmem, hcode, hflags, htriggers⟩ := hu
  cases h with
  | draws => exact hu
  | stores m hm => exact ⟨hm hmem, hcode, hflags, htriggers⟩
  | halts => exact hu
  | setsFlags _ _ _ hfr => exact ⟨hmem, hcode, hfr, htriggers⟩
  | jumps _ _ _ _ hfr => exact ⟨hmem, hcode, hfr, htriggers⟩
  | setsBase => exact hu
  | setsStack => exact hu
  | carries => exact ⟨hmem, hcode, writeBit_reservedFlags (by decide) hflags, htriggers⟩
  | dividesByZero d =>
    have hdrawn : { u with draws := d }.Inv := hu
    exact raiseInterrupt_keeps_inv (by decide) hdrawn
  | triggers _ _ _ hv hbits => exact trigger_keeps_inv hv hbits hu

theorem TakenBack.keeps_inv {s t : State} (h : TakenBack s t) (hs : s.Inv) : t.Inv := by
  obtain ⟨hv, d, rfl⟩ := h
  exact trigger_keeps_inv (bits := 0x0004#16) hv (by decide) hs

theorem ignore_keeps_inv (f : Fields) {s : State} (h : s.Inv) : (ignore f s).Inv := by
  simpa only [State.Inv, ignore_mem, ignore_code, ignore_fr, ignore_cfg, ignore_ir] using h

theorem Completed.keeps_inv {i : Instr} {f : Fields} {s t : State} (h : Completed i f s t) (hs : s.Inv) : t.Inv := by
  obtain ⟨d, u, output, m, heffect, hm, rfl⟩ := h.stages
  have hbefore : (beforeBody f s d).Inv := hs
  obtain ⟨hum, huc, hufr, huir⟩ := heffect.keeps_inv hbefore
  refine ⟨hm hum, huc, ?_, huir⟩
  show (if f.flg = true then writeZN u.fr output else u.fr) &&& reservedFlags u.cfg.variant = 0x0000#16
  split
  · exact writeZN_reservedFlags output hufr
  · exact hufr

theorem exec_keeps_inv {i : Instr} {s t : State} (h : exec i s = .next t) (hs : s.Inv) : t.Inv := by
  obtain ⟨f, _, ⟨_, rfl⟩ | hback | hdone⟩ := exec_next h
  · exact ignore_keeps_inv f hs
  · exact hback.keeps_inv hs
  · exact hdone.keeps_inv hs

/-- The opcode fetch and the instruction: a fetch only draws, and a bus error on it takes the step back. -/
theorem fetchAndExecute_keeps_inv {s t : State} (h : fetchAndExecute s = .next t) (hs : s.Inv) : t.Inv := by
  unfold fetchAndExecute at h
  split at h
  · next hfetch =>
    obtain ⟨_, d, _, rfl⟩ := memFetch_ok (through_ok hfetch)
    exact exec_keeps_inv h hs
  · next u hfetch =>
    cases h
    obtain ⟨hv, _⟩ := memFetch_busError (through_busError hfetch)
    exact (rollback_takenBack hv u).keeps_inv hs
  · cases h

/-- Settles O50: the interrupt phase keeps the invariant, and so does the instruction that may follow it. -/
theorem stepKeepsInv : Obligations.StepKeepsInv := by
  intro s t hs h
  unfold step at h
  split at h
  · next hphase =>
    have hinv := interruptPhase_keeps_inv hphase hs
    split at h
    · cases h
      exact hinv
    · exact fetchAndExecute_keeps_inv h hinv
  · cases h
  · cases h

/-! ### What no instruction but the named ones changes -/

section Untouched

variable {i : Instr} {f : Fields} {s t : State}

/-- FR after a completed instruction, above Z and N, is what the command left. -/
theorem getLsbD_writeZN_high (fr output : Word) {k : Nat} (hk : 2 ≤ k) :
    (writeZN fr output).getLsbD k = fr.getLsbD k := by
  unfold writeZN
  rw [getLsbD_writeBit, if_neg (by omega), getLsbD_writeBit, if_neg (by omega)]

theorem Completed.bp_eq (h : Completed i f s t) (hi : ∀ g, i ≠ .bpset g) :
    t.bp = s.bp ∧ t.bpUndefined = s.bpUndefined := by
  obtain ⟨_, _, _, _, heffect, _, rfl⟩ := h.stages
  exact heffect.bp_eq hi

theorem Completed.spUndefined_eq (h : Completed i f s t) (hi : ∀ g, i ≠ .spset g) : t.spUndefined = s.spUndefined := by
  obtain ⟨_, _, _, _, heffect, _, rfl⟩ := h.stages
  exact (heffect.sp_eq hi).2

theorem Completed.undefined_of_undefined (h : Completed i f s t) :
    (t.bpUndefined = true → s.bpUndefined = true) ∧ (t.spUndefined = true → s.spUndefined = true) ∧
      (t.ipUndefined = true → s.ipUndefined = true) := by
  obtain ⟨_, _, _, _, heffect, _, rfl⟩ := h.stages
  exact heffect.undefined_of_undefined

theorem Completed.halted_eq (h : Completed i f s t) (hi : ∀ g, i ≠ .halt g) : t.halted = false := by
  obtain ⟨_, _, _, _, heffect, _, rfl⟩ := h.stages
  exact heffect.halted_eq hi

theorem Completed.cfg_eq (h : Completed i f s t) : t.cfg = s.cfg := by
  obtain ⟨_, _, _, _, heffect, _, rfl⟩ := h.stages
  exact heffect.cfg_eq

theorem Completed.events_eq (h : Completed i f s t) : t.events = s.events := by
  obtain ⟨_, _, _, _, heffect, _, rfl⟩ := h.stages
  exact heffect.events_eq

theorem Completed.ip_eq (h : Completed i f s t) (hi : ∀ g, i ≠ .setip g ∧ i ≠ .addip g) : t.ip = nextIp f s := by
  obtain ⟨_, _, _, _, heffect, _, rfl⟩ := h.stages
  exact heffect.ip_eq hi

theorem Completed.sp_eq (h : Completed i f s t) (hi : ∀ g, i ≠ .spset g) :
    t.sp = spAfterInputs f s - (if f.out = true then 2#16 else 0#16) := by
  obtain ⟨d, u, _, _, heffect, _, rfl⟩ := h.stages
  have hsp : u.sp = spAfterInputs f s := (heffect.sp_eq hi).1
  rw [← hsp]

theorem Completed.ir_mono (h : Completed i f s t) {k : Nat} (hk : s.ir.getLsbD k = true) : t.ir.getLsbD k = true := by
  obtain ⟨_, _, _, _, heffect, _, rfl⟩ := h.stages
  exact heffect.ir_mono hk

theorem Completed.ir_eq (h : Completed i f s t) (hi : ∀ g, i ≠ .intr g) :
    t.ir = s.ir ∨ (t.ir = s.ir ||| 0x0010#16 ∧ (∃ g, i = .div g ∨ i = .mod g) ∧ s.fr.getLsbD 4 = true) := by
  obtain ⟨_, _, _, _, heffect, _, rfl⟩ := h.stages
  exact heffect.ir_eq hi

/-- FR from bit 2 on is what the command body left, and all of it is without `flg`. -/
theorem Completed.fr_stages (h : Completed i f s t) :
    ∃ d u, CommandEffect i (beforeBody f s d) u ∧ (∀ k, 2 ≤ k → t.fr.getLsbD k = u.fr.getLsbD k) ∧
      (f.flg = false → t.fr = u.fr) := by
  obtain ⟨d, u, output, _, heffect, _, rfl⟩ := h.stages
  refine ⟨d, u, heffect, fun k hk => ?_, fun hflg => by simp [hflg]⟩
  show (if f.flg = true then writeZN u.fr output else u.fr).getLsbD k = u.fr.getLsbD k
  split
  · exact getLsbD_writeZN_high u.fr output hk
  · rfl

theorem Completed.fr_high (h : Completed i f s t) (hi : ∀ g, i ≠ .frset g ∧ i ≠ .setip g ∧ i ≠ .addip g) {k : Nat}
    (hk : 3 ≤ k) : t.fr.getLsbD k = s.fr.getLsbD k := by
  obtain ⟨_, _, heffect, hhigh, _⟩ := h.fr_stages
  exact (hhigh k (by omega)).trans (heffect.fr_high hi hk)

theorem Completed.fr_eq (h : Completed i f s t) (hi : ∀ g, i ≠ .frset g ∧ i ≠ .setip g ∧ i ≠ .addip g)
    (hc : ∀ g, i ≠ .add g ∧ i ≠ .sub g ∧ i ≠ .mul g) :
    t.fr.getLsbD 2 = s.fr.getLsbD 2 ∧ (f.flg = false → t.fr = s.fr) := by
  obtain ⟨_, u, heffect, hhigh, hflg⟩ := h.fr_stages
  have hfr : u.fr = s.fr := heffect.fr_eq hi hc
  exact ⟨hfr ▸ hhigh 2 (le_refl 2), fun hf => hfr ▸ hflg hf⟩

end Untouched

theorem interruptPhase_bp_cfg {s t : State} {taken : Bool} (h : interruptPhase s = .ok taken t) :
    t.bp = s.bp ∧ t.cfg = s.cfg := by
  obtain hk | hk := interruptPhase_keeps h
  · exact ⟨hk.bp, hk.cfg⟩
  · exact ⟨hk.bp.trans (externalEvents_bp s), hk.cfg.trans (externalEvents_cfg s)⟩

/-- Settles O41: an ignored instruction touches IP and `halted` only, a bus error IR only, and a completed one what its
command does. -/
theorem untouchedState : Obligations.UntouchedState := by
  refine ⟨fun s t taken h => interruptPhase_bp_cfg h, fun i s t h => ?_⟩
  obtain ⟨f, _, ⟨_, rfl⟩ | hback | hdone⟩ := exec_next h
  · simp
  · obtain ⟨hv, d, rfl⟩ := hback
    exact ⟨fun _ => ⟨rfl, rfl⟩, fun _ => rfl, id, id, id, fun _ => .inr ⟨hv, rfl⟩, rfl, rfl⟩
  · obtain ⟨hbp, hsp, hip⟩ := hdone.undefined_of_undefined
    exact ⟨hdone.bp_eq, hdone.spUndefined_eq, hbp, hsp, hip, fun hi => .inl (hdone.halted_eq hi), hdone.cfg_eq,
      hdone.events_eq⟩

/-- Settles O42: the flag stage writes Z and N only, and the command what `CommandEffect` allows it. -/
theorem flagWriters : Obligations.FlagWriters := by
  intro i s t h hi
  obtain ⟨f, hf, ⟨_, rfl⟩ | hback | hdone⟩ := exec_next h
  · simp
  · obtain ⟨_, d, rfl⟩ := hback
    exact ⟨fun _ _ => rfl, fun _ => ⟨rfl, fun _ _ _ => rfl⟩⟩
  · refine ⟨fun k hk => hdone.fr_high hi hk, fun hc => ?_⟩
    obtain ⟨hcarry, hflg⟩ := hdone.fr_eq hi hc
    refine ⟨hcarry, fun g hg => ?_⟩
    cases hf.symm.trans hg
    exact hflg

/-- Settles O43: ignored or completed, the instruction passes its opcode word and its immediates. -/
theorem ipIsSequential : Obligations.IpIsSequential := by
  intro i f s t hf hi h
  obtain ⟨_, rfl⟩ | hback | hdone := exec_next_of_fields hf h
  · exact .inl (ignore_ip f s)
  · exact .inr hback.eq
  · exact .inl (hdone.ip_eq hi)

/-- Settles O44: an ignored instruction leaves IR alone, a bus error and a command only add bits to it. -/
theorem interruptRegisterWriters : Obligations.InterruptRegisterWriters := by
  intro i s t h
  obtain ⟨f, _, ⟨_, rfl⟩ | hback | hdone⟩ := exec_next h
  · simp
  · refine ⟨fun k hk => ?_, fun _ => .inr (.inr hback.eq)⟩
    obtain ⟨_, d, rfl⟩ := hback
    simp [hk]
  · exact ⟨fun k hk => hdone.ir_mono hk, fun hi => (hdone.ir_eq hi).imp_right .inl⟩

/-- Settles O45: ignored, taken back by a bus error, or completed, in which case only the input and output stages move
SP. -/
theorem stackPointerMoves : Obligations.StackPointerMoves := by
  intro i f s t hf hi h
  obtain ⟨hc, rfl⟩ | hback | hdone := exec_next_of_fields hf h
  · exact .inl ⟨hc, ignore_sp f s⟩
  · exact .inr (.inr hback.eq)
  · exact .inr (.inl ⟨hdone.condition, hdone.sp_eq hi⟩)

theorem reset_inv : State.reset.Inv := ⟨wf_reset.1, wf_reset.2, by decide, by decide⟩

theorem resetMarkIIL_inv : State.resetMarkIIL.Inv := ⟨wf_reset.1, wf_reset.2, by decide, by decide⟩

/-- Settles O51: the fields stand in the two literals, and their memories are empty. -/
theorem powerOnStates : Obligations.PowerOnStates :=
  ⟨⟨rfl, rfl, rfl, rfl, rfl, rfl, rfl, reset_inv⟩, ⟨rfl, rfl, rfl, rfl, rfl, rfl, resetMarkIIL_inv⟩⟩

end Sys2Proof.Machine
end

section
/-! PROOFS. The statements of 20_memory.md: words and bytes of memory, the accesses on a plain platform, at odd
addresses and at device bytes, and where an instruction stores. -/

namespace Sys2Proof.Machine

/-! ### Byte memory -/

/-- A canonical list: its first cell's address, byte and the rest. -/
theorem wfFrom_cons {lo k : Nat} {b : Byte} {rest : Memory} :
    Memory.wfFrom lo ((k, b) :: rest) = true ↔
      lo ≤ k ∧ k < 65536 ∧ b ≠ unlistedByte ∧ Memory.wfFrom (k + 1) rest = true := by
  simp [Memory.wfFrom, and_assoc]

@[simp] theorem readByte_cons_same (k : Nat) (b : Byte) (rest : Memory) :
    Memory.readByte ((k, b) :: rest) k = b := by
  simp [Memory.readByte]

theorem readByte_cons_of_ne {k x : Nat} (b : Byte) (rest : Memory) (h : k ≠ x) :
    Memory.readByte ((k, b) :: rest) x = rest.readByte x := by
  simp [Memory.readByte, h]

/-- The first cell of a canonical list is listed in every canonical list with the same bytes, and not behind its
first cell. -/
theorem head_le_of_readByte_eq {lo j k : Nat} {b c : Byte} {m n : Memory}
    (hm : Memory.wfFrom lo ((j, b) :: m) = true) (hn : Memory.wfFrom lo ((k, c) :: n) = true)
    (h : ∀ x, Memory.readByte ((j, b) :: m) x = Memory.readByte ((k, c) :: n) x) : k ≤ j := by
  obtain ⟨_, _, hb, _⟩ := wfFrom_cons.mp hm
  obtain ⟨_, hk, hc, hrest⟩ := wfFrom_cons.mp hn
  by_contra hlt
  have hnone : Memory.readByte ((k, c) :: n) j = unlistedByte :=
    readByte_of_lt (wfFrom_cons.mpr ⟨le_refl k, hk, hc, hrest⟩) (by omega)
  exact hb (((readByte_cons_same j b m).symm.trans (h j)).trans hnone)

/-- A canonical list with a cell has a byte that the empty memory has not. -/
theorem not_readByte_cons_eq_nil {lo k : Nat} {b : Byte} {m : Memory} (hm : Memory.wfFrom lo ((k, b) :: m) = true) :
    Memory.readByte ((k, b) :: m) k ≠ Memory.readByte [] k := by
  obtain ⟨_, _, hb, _⟩ := wfFrom_cons.mp hm
  exact fun h => hb ((readByte_cons_same k b m).symm.trans h)

/-- Canonical lists from the same address on with the same bytes are the same: their first cells agree, and the rests
again have the same bytes. -/
theorem eq_of_readByte_eq {lo : Nat} {m n : Memory} (hm : m.wfFrom lo = true) (hn : n.wfFrom lo = true)
    (h : ∀ x, m.readByte x = n.readByte x) : m = n := by
  induction m generalizing lo n with
  | nil =>
    cases n with
    | nil => rfl
    | cons c n => exact absurd (h c.1).symm (not_readByte_cons_eq_nil hn)
  | cons c m ih =>
    cases n with
    | nil => exact absurd (h c.1) (not_readByte_cons_eq_nil hm)
    | cons d n =>
      obtain ⟨j, b⟩ := c
      obtain ⟨k, c⟩ := d
      have hjk : j = k :=
        le_antisymm (head_le_of_readByte_eq hn hm fun x => (h x).symm) (head_le_of_readByte_eq hm hn h)
      subst hjk
      have hbc : b = c := by simpa using h j
      obtain ⟨_, _, _, hm'⟩ := wfFrom_cons.mp hm
      obtain ⟨_, _, _, hn'⟩ := wfFrom_cons.mp hn
      have hrest : ∀ x, Memory.readByte m x = Memory.readByte n x := by
        intro x
        by_cases hx : j = x
        · rw [readByte_of_lt hm' (by omega), readByte_of_lt hn' (by omega)]
        · rw [← readByte_cons_of_ne b m hx, ← readByte_cons_of_ne c n hx]
          exact h x
      rw [hbc, ih hm' hn' hrest]

/-- Settles O11, by induction on the lists. -/
theorem equalContentsEqualMemory : Obligations.EqualContentsEqualMemory :=
  fun _ _ hm hn h => eq_of_readByte_eq hm hn h

/-- A high byte joined to a low one is the high one shifted left by 8 and the low one. -/
theorem append_eq_or_shiftLeft (hi lo : Byte) : hi ++ lo = lo.setWidth 16 ||| (hi.setWidth 16 <<< 8) := by
  apply BitVec.eq_of_getLsbD_eq
  intro k hk
  rw [BitVec.getLsbD_append, BitVec.getLsbD_or, BitVec.getLsbD_shiftLeft, BitVec.getLsbD_setWidth,
    BitVec.getLsbD_setWidth]
  by_cases h : k < 8
  · simp [h, hk]
  · have hlo : lo.getLsbD k = false := BitVec.getLsbD_of_ge lo k (by omega)
    have hk8 : k - 8 < 16 := by omega
    simp [h, hk, hlo, hk8]

/-- Settles O8, from the rules of word reads and writes. -/
theorem littleEndian : Obligations.LittleEndian := by
  intro m a v hm _
  exact ⟨append_eq_or_shiftLeft _ _, readByte_writeWord_low hm a v, readByte_writeWord_high hm a v,
    readWord_writeWord_same hm a v⟩

/-! ### Accesses on a plain platform -/

/-- Settles O9: the memory after the write is the old one with one byte, or one word, written. -/
theorem writeStoresItsBytesOnly : Obligations.WriteStoresItsBytesOnly := by
  intro s a v hplain hwf
  constructor
  · exact ⟨_, memWrite8_plain hplain a v, wf_writeByte hwf a.isLt _, readByte_writeByte_same hwf _ _,
      fun x hx => readByte_writeByte_other _ hx _⟩
  · intro ha
    exact ⟨_, memWrite16_plain hplain ha v, wf_writeWord hwf ha v, readByte_writeWord_low hwf a v,
      readByte_writeWord_high hwf a v, fun x h0 h1 => readByte_writeWord_other _ a v h0 h1⟩

/-! ### Odd addresses and undefined registers -/

theorem not_isEven_sub_two {a : Word} (h : ¬ IsEven a) : ¬ IsEven (a - 2#16) :=
  fun h2 => h (by simpa using isEven_add_two h2)

section Odd

variable {a : Word} (ha : ¬ IsEven a) (s : State)
include ha

theorem memRead16_odd : memRead16 a s = .fault (.misaligned a) :=
  if_pos (by simpa using ha)

theorem memWrite16_odd (v : Word) : memWrite16 a v s = .fault (.misaligned a) :=
  if_pos (by simpa using ha)

theorem memFetch_odd : memFetch a s = .fault (.misaligned a) :=
  if_pos (by simpa using ha)

end Odd

theorem addressIn_sp_undefined {s : State} (h : s.spUndefined = true) :
    addressIn .sp s = .fault (.undefinedAddress .sp) := by
  simp [addressIn, h]

theorem addressIn_ip_undefined {s : State} (h : s.ipUndefined = true) :
    addressIn .ip s = .fault (.undefinedAddress .ip) := by
  simp [addressIn, h]

/-- Settles O10: `addressIn` answers the register's content or faults, and an access at an odd address faults. -/
theorem oddWordAccessFaults : Obligations.OddWordAccessFaults := by
  refine ⟨fun s a v ha => ?_, fun s v hsp => ?_, fun s hip => ?_⟩
  · refine ⟨memRead16_odd ha s, memWrite16_odd ha s v, memFetch_odd ha s, ?_, ?_, ?_, ?_, ?_⟩
    · exact memWrite16_odd (not_isEven_sub_two ha) _ v
    · simp [fetchInput, memRead16_odd ha]
    · simp [fetchInput, memRead16_odd ha]
    · simp [fetchInput, memFetch_odd ha]
    · simp [fetchOpcode, memFetch_odd ha]
  · simp [push, fetchInput, addressIn_sp_undefined hsp]
  · simp [fetchInput, fetchOpcode, addressIn_ip_undefined hip]

/-! ### Device bytes -/

theorem readByteFrom_eq (m : Memory) (a : Nat) (s : State) :
    readByteFrom m a s = (byteSeen s m a s.draws, { s with draws := s.draws + drawsAt s a }) := by
  unfold readByteFrom byteSeen drawsAt
  split <;> rfl

/-- The low byte is seen first; the high byte sees the draw it may have taken. -/
theorem readWordFrom_eq (m : Memory) (a : Word) (s : State) :
    readWordFrom m a s =
      (byteSeen s m (a.toNat + 1) (s.draws + drawsAt s a.toNat) ++ byteSeen s m a.toNat s.draws,
        { s with draws := s.draws + drawsAt s a.toNat + drawsAt s (a.toNat + 1) }) := by
  simp only [readWordFrom, readByteFrom_eq]
  rfl

theorem writeByteTo_eq (a : Nat) (v : Byte) (s : State) :
    writeByteTo a v s = { s with mem := byteKept s s.mem a v } := by
  unfold writeByteTo byteKept
  split <;> rfl

section NotSignalled

variable {s : State} {a : Word}

theorem memRead8_of_not_signalled (hb : s.busSignalled .read 1 a = false) :
    memRead8 a s = .ok (byteSeen s s.mem a.toNat s.draws) { s with draws := s.draws + drawsAt s a.toNat } := by
  simp [memRead8, hb, readByteFrom_eq]

theorem memRead16_of_not_signalled (ha : IsEven a) (hb : s.busSignalled .read 2 a = false) :
    memRead16 a s = .ok (readWordFrom s.mem a s).1 (readWordFrom s.mem a s).2 := by
  simp only [memRead16, show a.getLsbD 0 = false from ha, hb, Bool.false_eq_true, if_false]

theorem memFetch_of_not_signalled (ha : IsEven a) (hb : s.busSignalled .fetch 2 a = false) :
    memFetch a s = .ok (readWordFrom s.fetchMemory a s).1 (readWordFrom s.fetchMemory a s).2 := by
  simp only [memFetch, show a.getLsbD 0 = false from ha, hb, Bool.false_eq_true, if_false]

theorem memWrite8_of_not_signalled (v : Word) (hb : s.busSignalled .write 1 a = false) :
    memWrite8 a v s = .ok () { s with mem := byteKept s s.mem a.toNat (v.extractLsb' 0 8) } := by
  simp [memWrite8, hb, writeByteTo_eq]

theorem memWrite16_of_not_signalled (v : Word) (ha : IsEven a) (hb : s.busSignalled .write 2 a = false) :
    memWrite16 a v s = .ok () { s with
      mem := byteKept s (byteKept s s.mem a.toNat (v.extractLsb' 0 8)) (a.toNat + 1) (v.extractLsb' 8 8) } := by
  simp only [memWrite16, show a.getLsbD 0 = false from ha, hb, Bool.false_eq_true, if_false, writeByteTo_eq]
  rfl

end NotSignalled

/-- Settles O12: the accesses in terms of the bytes they see and keep, which a device address decides. -/
theorem deviceBytes : Obligations.DeviceBytes := by
  refine ⟨fun s a v hdev => ⟨fun hb => ?_, fun hb => ?_⟩, ?_⟩
  · simp [memRead8_of_not_signalled hb, byteSeen, drawsAt, hdev]
  · simp [memWrite8_of_not_signalled v hb, byteKept, hdev]
  · rintro s a v n ha rfl
    refine ⟨fun hb => ?_, fun hb => ?_, memWrite16_of_not_signalled v ha⟩
    · rw [memRead16_of_not_signalled ha hb, readWordFrom_eq]
    · rw [memFetch_of_not_signalled ha hb, readWordFrom_eq]

/-! ### Where an instruction stores -/

/-- What the body of `i`, run in `u` on the inputs `a` and `b`, has done in `v`: stored nowhere but at `bodyStores`, and
left the SP that the output stage pushes through. -/
structure BodyStored (i : Instr) (a b : Word) (u v : State) : Prop where
  mem : ∀ x, x ∉ bodyStores i a b u → v.mem.readByte x = u.mem.readByte x
  code : v.code = u.code
  sp : v.sp = pushSp i a u

/-- A command body of instruction `i`: whenever it answers, it has stored nowhere but where `i` may. -/
structure BodyStores (i : Instr) (body : Word → Word → State → Res Word) : Prop where
  stored : ∀ {a b o : Word} {u v : State}, body a b u = .ok o v → BodyStored i a b u v

/-- Memory, code memory and SP are as they were. -/
structure KeepsStorage (u v : State) : Prop where
  mem : v.mem = u.mem
  code : v.code = u.code
  sp : v.sp = u.sp

theorem memRead16_keepsStorage {a o : Word} {u v : State} (h : memRead16 a u = .ok o v) : KeepsStorage u v := by
  obtain ⟨_, d, _, rfl⟩ := memRead16_ok h
  exact ⟨rfl, rfl, rfl⟩

theorem writeFR_keepsStorage {w : Word} {u v : State} (h : writeFR w u = .ok () v) : KeepsStorage u v := by
  obtain ⟨_, rfl⟩ := writeFR_ok h
  exact ⟨rfl, rfl, rfl⟩

theorem registerValue_keepsStorage (undefined : Bool) (w : Word) (u : State) :
    KeepsStorage u (registerValue undefined w u).2 := by
  obtain ⟨d, _, hd⟩ := registerValue_state undefined w u
  rw [hd]
  exact ⟨rfl, rfl, rfl⟩

theorem not_mem_wordAddresses {x : Nat} {a : Word} : x ∉ wordAddresses a ↔ x ≠ a.toNat ∧ x ≠ a.toNat + 1 := by
  simp [wordAddresses]

/-- A word written and nothing else done. -/
theorem memWrite16_stored {i : Instr} {a b addr w : Word} {u v : State} (h : memWrite16 addr w u = .ok () v)
    (hstores : bodyStores i a b u = wordAddresses addr) (hsp : pushSp i a u = u.sp) : BodyStored i a b u v := by
  obtain ⟨_, m, rfl, hm, _⟩ := memWrite16_ok h
  refine ⟨fun x hx => ?_, rfl, hsp.symm⟩
  obtain ⟨hlow, hhigh⟩ := not_mem_wordAddresses.mp (hstores ▸ hx)
  exact hm x hlow hhigh

namespace BodyStores

variable {i : Instr}

/-- A body that keeps memory, code memory and SP, of an instruction that pushes through SP as it is. -/
theorem of_keeps {body : Word → Word → State → Res Word} (hi : ∀ a u, pushSp i a u = u.sp)
    (h : ∀ {a b o : Word} {u v : State}, body a b u = .ok o v → KeepsStorage u v) : BodyStores i body where
  stored {a _ _ u _} hbody := by
    obtain ⟨hmem, hcode, hsp⟩ := h hbody
    exact ⟨fun x _ => by rw [hmem], hcode, hsp.trans (hi a u).symm⟩

/-- A body that always answers, from a state that it leaves with the same memory, code memory and SP. -/
theorem always (hi : ∀ a u, pushSp i a u = u.sp) (output : Word → Word → State → Word)
    (next : Word → Word → State → State) (h : ∀ a b u, KeepsStorage u (next a b u)) :
    BodyStores i fun a b u => .ok (output a b u) (next a b u) :=
  of_keeps hi fun {a b _ u _} e => by cases e; exact h a b u

/-- A body that computes its output and leaves the state alone. -/
theorem computes (hi : ∀ a u, pushSp i a u = u.sp) (output : Word → Word → State → Word) :
    BodyStores i fun a b u => .ok (output a b u) u :=
  always hi output (fun _ _ u => u) fun _ _ _ => ⟨rfl, rfl, rfl⟩

theorem get (f : Fields) : BodyStores (.get f) fun a _ u =>
    (addressIn .bp u).bind fun bp s => memRead16 (indexedAddress bp a) s :=
  of_keeps (fun _ _ => rfl) fun h => by
    have hread := through_ok h
    exact memRead16_keepsStorage hread

theorem set (f : Fields) : BodyStores (.set f) fun a b u => (addressIn .bp u).bind fun bp s =>
    (memWrite16 (indexedAddress bp a) b s).bind fun _ s => .ok b s where
  stored h := by
    obtain ⟨_, t, ht, h⟩ := bind_eq_ok (through_ok h)
    cases h
    exact memWrite16_stored ht rfl rfl

theorem store8 (f : Fields) : BodyStores (.store8 f) fun a b u =>
    (memWrite8 b a u).bind fun _ s => .ok (a &&& 0x00FF#16) s where
  stored h := by
    obtain ⟨_, t, ht, h⟩ := bind_eq_ok h
    cases h
    obtain ⟨m, rfl, hm, _⟩ := memWrite8_ok ht
    exact ⟨fun x hx => hm x (List.ne_of_not_mem_cons hx), rfl, rfl⟩

theorem store16 (f : Fields) : BodyStores (.store16 f) fun a b u =>
    (memWrite16 b a u).bind fun _ s => .ok a s where
  stored h := by
    obtain ⟨_, t, ht, h⟩ := bind_eq_ok h
    cases h
    exact memWrite16_stored ht rfl rfl

theorem load8 (f : Fields) : BodyStores (.load8 f) fun a _ u =>
    (memRead8 a u).bind fun v s => .ok (v.setWidth 16) s :=
  of_keeps (fun _ _ => rfl) fun h => by
    obtain ⟨_, t, ht, h⟩ := bind_eq_ok h
    cases h
    obtain ⟨d, _, rfl⟩ := memRead8_ok ht
    exact ⟨rfl, rfl, rfl⟩

theorem cpuid (f : Fields) : BodyStores (.cpuid f) fun a b u =>
    if a = 0x0000#16 ∧ b = 0x0000#16 then .ok 0x0000#16 u else .fault .cpuidInput :=
  of_keeps (fun _ _ => rfl) fun h => by
    split at h <;> cases h
    exact ⟨rfl, rfl, rfl⟩

theorem frset (f : Fields) : BodyStores (.frset f) fun a b u =>
    (writeFR ((a &&& ~~~b) ||| (u.fr &&& b)) u).bind fun _ t => .ok u.fr t :=
  of_keeps (fun _ _ => rfl) fun h => by
    obtain ⟨_, t, ht, h⟩ := bind_eq_ok h
    cases h
    exact writeFR_keepsStorage ht

/-- SPSET's push goes through the new SP, its input0. -/
theorem spset (f : Fields) : BodyStores (.spset f) fun a _ u =>
    .ok (registerValue u.spUndefined u.sp u).1
      { (registerValue u.spUndefined u.sp u).2 with sp := a, spUndefined := false } where
  stored {_ _ _ u _} h := by
    cases h
    obtain ⟨hmem, hcode, _⟩ := registerValue_keepsStorage u.spUndefined u.sp u
    exact ⟨fun x _ => congrArg (Memory.readByte · x) hmem, hcode, rfl⟩

/-- DIV and MOD differ in the word they compute for a divisor that is not 0. -/
theorem divide (hi : ∀ a u, pushSp i a u = u.sp) (result : Config → Word → Word → Word) :
    BodyStores i fun a b u => if b = 0x0000#16 then divideByZero u else .ok (result u.cfg a b) u :=
  of_keeps hi fun h => by
    split at h <;> cases h
    · exact ⟨raiseInterrupt_mem .., raiseInterrupt_code .., raiseInterrupt_sp ..⟩
    · exact ⟨rfl, rfl, rfl⟩

/-- SETIP and ADDIP differ in the target. -/
theorem jump (hi : ∀ a u, pushSp i a u = u.sp) (target : Word → State → Word) :
    BodyStores i fun a b u => (jumpSettingFlags (target a u) b u).bind fun _ t => .ok u.ip t :=
  of_keeps hi fun h => by
    obtain ⟨_, t, ht, h⟩ := bind_eq_ok h
    cases h
    obtain ⟨_, rfl⟩ := jumpSettingFlags_ok ht
    exact ⟨rfl, rfl, rfl⟩

theorem intr (f : Fields) : BodyStores (.intr f) fun a _ u =>
    if u.cfg.variant = .markIIL then .fault .intrOnMarkIIL
    else if a &&& reservedInterrupts = 0x0000#16 then .ok a { u with ir := u.ir ||| a }
    else .fault .reservedInterruptBit :=
  of_keeps (fun _ _ => rfl) fun h => by
    split at h
    · cases h
    · split at h <;> cases h
      exact ⟨rfl, rfl, rfl⟩

end BodyStores

/-- Every defined instruction is its fields' frame around a body that stores where `bodyStores` says. -/
theorem exec_defined_stores (i : Instr) (hi : i.isDefined = true) :
    ∃ f body, i.fields? = some f ∧ (∀ s, exec i s = runCommand f body s) ∧ BodyStores i body := by
  cases i with
  | get f => exact ⟨f, _, rfl, fun _ => rfl, .get f⟩
  | set f => exact ⟨f, _, rfl, fun _ => rfl, .set f⟩
  | store8 f => exact ⟨f, _, rfl, fun _ => rfl, .store8 f⟩
  | store16 f => exact ⟨f, _, rfl, fun _ => rfl, .store16 f⟩
  | load8 f => exact ⟨f, _, rfl, fun _ => rfl, .load8 f⟩
  | load16 f => exact ⟨f, _, rfl, fun _ => rfl, .of_keeps (fun _ _ => rfl) memRead16_keepsStorage⟩
  | cpuid f => exact ⟨f, _, rfl, fun _ => rfl, .cpuid f⟩
  | frset f => exact ⟨f, _, rfl, fun _ => rfl, .frset f⟩
  | spset f => exact ⟨f, _, rfl, fun _ => rfl, .spset f⟩
  | div f => exact ⟨f, _, rfl, fun _ => rfl, .divide (fun _ _ => rfl) divQuotient⟩
  | mod f => exact ⟨f, _, rfl, fun _ => rfl, .divide (fun _ _ => rfl) modRemainder⟩
  | setip f => exact ⟨f, _, rfl, fun _ => rfl, .jump (fun _ _ => rfl) fun a _ => a⟩
  | addip f => exact ⟨f, _, rfl, fun _ => rfl, .jump (fun _ _ => rfl) fun a u => u.ip + a⟩
  | intr f => exact ⟨f, _, rfl, fun _ => rfl, .intr f⟩
  | bpget f | spget f =>
    exact ⟨f, _, rfl, fun _ => rfl, .always (fun _ _ => rfl) _ _ fun _ _ u => registerValue_keepsStorage _ _ u⟩
  | bpset f =>
    refine ⟨f, _, rfl, fun _ => rfl, .always (fun _ _ => rfl) _ _ fun _ _ u => ?_⟩
    obtain ⟨hmem, hcode, hsp⟩ := registerValue_keepsStorage u.bpUndefined u.bp u
    exact ⟨hmem, hcode, hsp⟩
  | halt f | add f | sub f | mul f =>
    exact ⟨f, _, rfl, fun _ => rfl, .always (fun _ _ => rfl) _ _ fun _ _ _ => ⟨rfl, rfl, rfl⟩⟩
  | copy f | frget f | and f | or f | xor f | not f | signext f | rol f | ror f | bswap f | asr f | lsl f | lsr f =>
    exact ⟨f, _, rfl, fun _ => rfl, .computes (fun _ _ => rfl) _⟩
  | reservedCmd1 | reservedCmd35 | reservedCmd36to39 | reservedCmd40to47 | reservedCmd48to63 | reservedBit15 => cases hi

/-- The output stage stores the pushed word, if it pushes one, and nothing else. -/
theorem outputStage_stores {f : Fields} {o : Word} {u v : State} (h : outputStage f o u = .ok () v) :
    (∀ x, x ∉ (if f.out then wordAddresses (u.sp - 2#16) else []) → v.mem.readByte x = u.mem.readByte x) ∧
      v.code = u.code := by
  obtain ⟨_, rfl⟩ | ⟨hout, _, m, rfl, hm, _⟩ := outputStage_ok h
  · exact ⟨fun _ _ => rfl, rfl⟩
  · refine ⟨fun x hx => ?_, rfl⟩
    obtain ⟨hlow, hhigh⟩ := not_mem_wordAddresses.mp (if_pos hout ▸ hx)
    exact hm x hlow hhigh

/-- The bytes an executed instruction may store to, once its inputs are known. -/
theorem storeAddresses_of_inputStage {i : Instr} {f : Fields} {s t : State} {inputs : Word × Word}
    (hc : conditionHolds f.cond s.fr = true) (h : inputStage f (passOpcode s) = .ok inputs t) :
    storeAddresses i f s =
      bodyStores i inputs.1 inputs.2 t ++ (if f.out then wordAddresses (pushSp i inputs.1 t - 2#16) else []) := by
  simp [storeAddresses, hc, h]

/-- Settles O46: an ignored instruction and one taken back store nothing; a completed one stores in its body and its
output stage. -/
theorem storesOnlyThere : Obligations.StoresOnlyThere := by
  intro i f s t hf h
  cases hi : i.isDefined with
  | false =>
    obtain ⟨g, _, hr⟩ := exec_undefined hi h
    obtain ⟨_, rfl⟩ := runReserved_next hr
    exact ⟨fun x _ => by rw [ignore_mem], ignore_code g s⟩
  | true =>
    obtain ⟨g, body, hg, hexec, hbody⟩ := exec_defined_stores i hi
    cases hf.symm.trans hg
    rw [hexec s] at h
    obtain ⟨_, rfl⟩ | ⟨_, u, _, rfl⟩ | ⟨hc, inputs, s1, o, s2, s3, hin, hrun, hout, rfl⟩ := runCommand_next h
    · exact ⟨fun x _ => by rw [ignore_mem], ignore_code f s⟩
    · exact ⟨fun x _ => by rw [rollback_mem], rollback_code s u⟩
    · rw [storeAddresses_of_inputStage hc hin]
      obtain ⟨hmem, hcode, hsp⟩ := hbody.stored hrun
      obtain ⟨hpush, hpushCode⟩ := outputStage_stores hout
      obtain ⟨d, _, rfl⟩ := inputStage_ok hin
      refine ⟨fun x hx => ?_, ?_⟩
      · rw [List.mem_append, not_or, ← hsp] at hx
        obtain ⟨hxBody, hxPush⟩ := hx
        rw [flagStage_mem]
        exact (hpush x hxPush).trans (hmem x hxBody)
      · rw [flagStage_code]
        exact hpushCode.trans hcode

end Sys2Proof.Machine
end

section
/-! PROOFS. The statements of 30_encoding.md: the fields of the opcode word, the decoder and the encoder of one word and
of a byte sequence, the length, and the reserved encodings. Decoding after encoding goes through `decodeWord_opcodeWord`,
encoding after decoding through `encodeWord_decodeCommand`: both speak of a command number and its configuration. -/

namespace Sys2Proof

/-! ### The configuration fields -/

@[simp] theorem Cond.ofBits_toBits (c : Cond) : Cond.ofBits c.toBits = c := by cases c <;> rfl

@[simp] theorem Mode.ofBits_toBits (m : Mode) : Mode.ofBits m.toBits = m := by cases m <;> rfl

@[simp] theorem Cond.toBits_ofBits : ∀ b : BitVec 3, (Cond.ofBits b).toBits = b := by decide

@[simp] theorem Mode.toBits_ofBits : ∀ b : BitVec 2, (Mode.ofBits b).toBits = b := by decide

section Fields

variable (f : Fields)

theorem Fields.toBits_cond : f.toBits.extractLsb' 0 3 = f.cond.toBits :=
  BitVec.extractLsb'_append_eq_right

theorem Fields.toBits_in0 : f.toBits.extractLsb' 3 2 = f.in0.toBits := by
  unfold Fields.toBits
  exact (BitVec.extractLsb'_append_eq_of_le (Nat.le_refl 3)).trans BitVec.extractLsb'_append_eq_right

theorem Fields.toBits_in1 : f.toBits.extractLsb' 5 2 = f.in1.toBits := by
  unfold Fields.toBits
  grind

theorem Fields.toBits_flg : f.toBits.getLsbD 7 = f.flg := by
  unfold Fields.toBits
  grind

theorem Fields.toBits_out : f.toBits.getLsbD 8 = f.out := by
  unfold Fields.toBits
  grind

/-- The configuration part decodes to the configuration it encodes. -/
@[simp] theorem Fields.ofBits_toBits : Fields.ofBits f.toBits = f := by
  simp only [Fields.ofBits, Fields.toBits_cond, Fields.toBits_in0, Fields.toBits_in1, Fields.toBits_flg,
    Fields.toBits_out, Cond.ofBits_toBits, Mode.ofBits_toBits]

end Fields

/-- Nine bits are the five fields cut out of them, put together again. -/
@[simp] theorem Fields.toBits_ofBits (b : BitVec 9) : (Fields.ofBits b).toBits = b := by
  simp only [Fields.ofBits, Fields.toBits, Cond.toBits_ofBits, Mode.toBits_ofBits]
  grind

/-! ### The opcode word of a command number and a configuration -/

section OpcodeWord

variable (c : BitVec 6) (f : Fields)

@[simp] theorem opcodeWord_command : (opcodeWord c f).extractLsb' 9 6 = c := by
  unfold opcodeWord
  grind

@[simp] theorem opcodeWord_fields : (opcodeWord c f).extractLsb' 0 9 = f.toBits :=
  BitVec.extractLsb'_append_eq_right

theorem opcodeWord_bit15 : (opcodeWord c f).getLsbD 15 = false := by
  unfold opcodeWord
  grind

/-- The opcode word decodes as its command number in the command map, with its own configuration. -/
theorem decodeWord_opcodeWord : decodeWord (opcodeWord c f) = decodeCommand c f := by
  simp only [decodeWord, opcodeWord_bit15, opcodeWord_command, opcodeWord_fields, Fields.ofBits_toBits,
    Bool.false_eq_true, if_false]

end OpcodeWord

theorem decodeWord_of_bit15 {w : Word} (h : w.getLsbD 15 = true) : decodeWord w = .reservedBit15 w := if_pos h

theorem decodeWord_of_not_bit15 {w : Word} (h : w.getLsbD 15 = false) :
    decodeWord w = decodeCommand (w.extractLsb' 9 6) (Fields.ofBits (w.extractLsb' 0 9)) :=
  if_neg (Bool.eq_false_iff.mp h)

/-- A word with bit 15 clear is the opcode word of the command number and the configuration in it. -/
theorem opcodeWord_of_not_bit15 {w : Word} (h : w.getLsbD 15 = false) :
    opcodeWord (w.extractLsb' 9 6) (Fields.ofBits (w.extractLsb' 0 9)) = w := by
  unfold opcodeWord
  rw [Fields.toBits_ofBits]
  grind

theorem toNat_append_eq_add {m n : Nat} (hi : BitVec m) (lo : BitVec n) :
    (hi ++ lo).toNat = hi.toNat * 2 ^ n + lo.toNat := by
  rw [BitVec.toNat_append, ← Nat.shiftLeft_add_eq_or_of_lt lo.isLt, Nat.shiftLeft_eq]

/-- Settles O4: the word's parts stand side by side, so its value is their weighted sum. -/
theorem opcodeFormula : Obligations.OpcodeFormula := by
  intro c f
  refine ⟨?_, opcodeWord_command c f, ?_⟩
  · simp only [opcodeWord, Fields.toBits, toNat_append_eq_add, BitVec.toNat_ofBool, BitVec.toNat_ofNat]
    omega
  · rw [opcodeWord_fields, Fields.ofBits_toBits]

/-! ### The command map -/

section CommandMap

variable {c : BitVec 6} (f : Fields)

theorem decodeCommand_of_36_le (h : 36 ≤ c.toNat) :
    decodeCommand c f =
      if c.toNat ≤ 39 then .reservedCmd36to39 c f
      else if c.toNat ≤ 47 then .reservedCmd40to47 c f
      else .reservedCmd48to63 c f := by
  unfold decodeCommand
  split
  case h_37 => rfl
  all_goals omega

theorem decodeCommand_36to39 (h : 36 ≤ c.toNat ∧ c.toNat ≤ 39) : decodeCommand c f = .reservedCmd36to39 c f := by
  rw [decodeCommand_of_36_le f h.1, if_pos h.2]

theorem decodeCommand_40to47 (h : 40 ≤ c.toNat ∧ c.toNat ≤ 47) : decodeCommand c f = .reservedCmd40to47 c f := by
  rw [decodeCommand_of_36_le f (by omega), if_neg (by omega), if_pos h.2]

theorem decodeCommand_48to63 (h : 48 ≤ c.toNat) : decodeCommand c f = .reservedCmd48to63 c f := by
  rw [decodeCommand_of_36_le f (by omega), if_neg (by omega), if_neg (by omega)]

/-- Every line of the map encodes with the line's command number. -/
theorem encodeWord_decodeCommand : encodeWord (decodeCommand c f) = opcodeWord c f := by
  unfold decodeCommand
  split
  case h_37 => split_ifs <;> rfl
  all_goals
    rename_i hc
    exact congrArg (opcodeWord · f) (BitVec.eq_of_toNat_eq hc.symm)

theorem decodeCommand_wellFormed : (decodeCommand c f).WellFormed = true := by
  obtain h | h := Nat.lt_or_ge c.toNat 36
  · unfold decodeCommand
    split
    case h_37 => grind
    all_goals rfl
  · rw [decodeCommand_of_36_le f h]
    split_ifs <;> simp only [Instr.WellFormed, decide_eq_true_eq] <;> omega

theorem decodeCommand_fields : (decodeCommand c f).fields? = some f := by
  unfold decodeCommand
  split
  case h_37 => split_ifs <;> rfl
  all_goals rfl

/-- The map prints a command for every number below 35 but 1. -/
theorem decodeCommand_isDefined : (decodeCommand c f).isDefined = true ↔ c.toNat ≠ 1 ∧ c.toNat < 35 := by
  obtain h | h := Nat.lt_or_ge c.toNat 36
  · unfold decodeCommand
    split
    case h_37 => grind
    all_goals
      rename_i hc
      simp [Instr.isDefined, hc]
  · rw [decodeCommand_of_36_le f h]
    split_ifs <;> simp only [Instr.isDefined, Bool.false_eq_true, false_iff] <;> omega

end CommandMap

/-- Settles O1: a row of one command is that command number's line of the map, a row of several is so by the range its
number lies in, and bit 15 decides the last. -/
theorem decodeEncodeWord : Obligations.DecodeEncodeWord := by
  intro i h
  cases i with
  | reservedCmd36to39 c f => exact (decodeWord_opcodeWord c f).trans (decodeCommand_36to39 f (of_decide_eq_true h))
  | reservedCmd40to47 c f => exact (decodeWord_opcodeWord c f).trans (decodeCommand_40to47 f (of_decide_eq_true h))
  | reservedCmd48to63 c f => exact (decodeWord_opcodeWord c f).trans (decodeCommand_48to63 f (of_decide_eq_true h))
  | reservedBit15 w => exact decodeWord_of_bit15 h
  | _ => exact decodeWord_opcodeWord _ _

/-- Settles O2: without bit 15 the word is put together again from its command number and its configuration. -/
theorem encodeDecodeWord : Obligations.EncodeDecodeWord := by
  intro w
  cases h : w.getLsbD 15 with
  | true =>
    rw [decodeWord_of_bit15 h]
    exact ⟨rfl, h⟩
  | false =>
    rw [decodeWord_of_not_bit15 h]
    exact ⟨(encodeWord_decodeCommand _).trans (opcodeWord_of_not_bit15 h), decodeCommand_wellFormed _⟩

/-- Settles O6: bit 15 picks the last row, and otherwise the command map says which numbers are defined. -/
theorem reservedPartition : Obligations.ReservedPartition := by
  intro w
  refine ⟨?_, decodeWord_of_bit15⟩
  cases h : w.getLsbD 15 with
  | true => simp [decodeWord_of_bit15 h, Instr.isDefined]
  | false => simp only [decodeWord_of_not_bit15 h, decodeCommand_isDefined, true_and]

/-- Settles O7: each word is evaluated through the decoder. -/
theorem encodingSamples : Obligations.EncodingSamples := by
  unfold Obligations.EncodingSamples
  decide

/-! ### The bytes of an instruction -/

/-- The two bytes of a word are read back as that word. -/
@[simp] theorem takeWord_wordBytes (w : Word) (rest : List Byte) : takeWord (wordBytes w ++ rest) = some (w, rest) :=
  congrArg (fun v => some (v, rest)) (Machine.append_halves w)

/-- The bytes of a list of words are read back as those words. -/
theorem takeWords_wordBytes (ws : List Word) (rest : List Byte) :
    takeWords ws.length (ws.flatMap wordBytes ++ rest) = some (ws, rest) := by
  induction ws with
  | nil => rfl
  | cons w ws ih => simp only [List.length_cons, List.flatMap_cons, List.append_assoc, takeWords, takeWord_wordBytes, ih]

theorem length_wordBytes (ws : List Word) : (ws.flatMap wordBytes).length = 2 * ws.length := by
  simp [wordBytes, List.length_flatMap, Nat.mul_comm]

theorem Assembled.wellFormed_iff {a : Assembled} :
    a.WellFormed = true ↔ a.instr.WellFormed = true ∧ a.immediates.length = a.instr.immediates := by
  simp only [Assembled.WellFormed, Bool.and_eq_true, beq_iff_eq]

/-- Settles O3: the opcode word comes back by O1, and it says how many of the words behind it are immediates. -/
theorem decodeEncodeBytes : Obligations.DecodeEncodeBytes := by
  intro a rest h
  obtain ⟨hinstr, hcount⟩ := Assembled.wellFormed_iff.mp h
  have himm := takeWords_wordBytes a.immediates rest
  rw [hcount] at himm
  simp only [decode, encodeBytes, encode, List.flatMap_cons, List.append_assoc, takeWord_wordBytes,
    decodeEncodeWord a.instr hinstr, himm]

/-! ### The length -/

theorem Mode.two_mul_immediates (m : Mode) : 2 * m.immediates = if m = .immediate then 2 else 0 := by
  cases m <;> rfl

theorem Instr.length_of_fields {i : Instr} {f : Fields} (h : i.fields? = some f) :
    i.length = 2 + (if f.in0 = .immediate then 2 else 0) + (if f.in1 = .immediate then 2 else 0) := by
  simp only [Instr.length, Instr.immediates, h, Fields.immediates, Nat.mul_add, Mode.two_mul_immediates, Nat.add_assoc]

/-- Field `in0` is the lower half of bits [6:3]. -/
theorem in0_eq_ofBits (w : Word) :
    (Fields.ofBits (w.extractLsb' 0 9)).in0 = Mode.ofBits ((w.extractLsb' 3 4).extractLsb' 0 2) :=
  congrArg Mode.ofBits (by grind)

/-- Field `in1` is the upper half of bits [6:3]. -/
theorem in1_eq_ofBits (w : Word) :
    (Fields.ofBits (w.extractLsb' 0 9)).in1 = Mode.ofBits ((w.extractLsb' 3 4).extractLsb' 2 2) :=
  congrArg Mode.ofBits (by grind)

/-- Settles O5: the length is counted from the two input modes, which are cut out of bits [6:3]. -/
theorem instructionLength : Obligations.InstructionLength := by
  refine ⟨fun i f => Instr.length_of_fields, fun a h => ?_, fun v w hv hw h => ?_⟩
  · obtain ⟨_, hcount⟩ := Assembled.wellFormed_iff.mp h
    rw [encodeBytes, length_wordBytes, encode, List.length_cons, hcount, Instr.length]
    omega
  · simp only [decodeWord_of_not_bit15 hv, decodeWord_of_not_bit15 hw, Instr.length_of_fields (decodeCommand_fields _),
      in0_eq_ofBits, in1_eq_ofBits, h]

end Sys2Proof

namespace Sys2Proof.Machine

/-! ### Reserved encodings -/

theorem runReserved_executed {f : Fields} {s : State} (h : conditionHolds f.cond s.fr = true) :
    runReserved f s = .fault .reservedCommand := if_pos h

/-- Settles O40: the arms of the reserved commands are `runReserved`, the arm of RESERVED_BIT15 is a fault. -/
theorem reservedEncodingsFault : Obligations.ReservedEncodingsFault := by
  intro f c w s
  have hbit15 : exec (.reservedBit15 w) s = .fault .reservedBit15 := rfl
  refine ⟨fun h => ?_, hbit15⟩
  have hfault := runReserved_executed h
  exact ⟨hfault, hfault, hfault, hfault, hfault⟩

end Sys2Proof.Machine
end

section
/-! PROOFS. The statements of 40_instruction_cycle.md: conditions, ignored instructions, the input stage, push and pop, the
flag stage, and the step. The input stage is one input after another (`fetchInput_plain`); the step goes through what the
interrupt phase does when it takes nothing (`interruptPhase_masked`, `interruptPhase_markIIL`) and the opcode fetch on a
plain platform (`fetchAndExecute_plain`), where no instruction meets a bus error (`exec_defined_plain`), and so none
restores `halted` (`exec_awake`). -/

namespace Sys2Proof.Machine

/-! ### Conditions and flags -/

/-- A condition sees Z, N and C only. -/
theorem conditionHolds_congr (c : Cond) {fr fr' : Word} (hZ : flagZ fr = flagZ fr') (hN : flagN fr = flagN fr')
    (hC : flagC fr = flagC fr') : conditionHolds c fr = conditionHolds c fr' := by
  cases c <;> simp only [conditionHolds, hZ, hN, hC]

/-- Words that agree on their lowest `n` bits agree on each of them. -/
theorem getLsbD_eq_of_extractLsb'_eq {n k : Nat} {w w' : Word} (h : w.extractLsb' 0 n = w'.extractLsb' 0 n)
    (hk : k < n) : w.getLsbD k = w'.getLsbD k := by
  have hbit := congrArg (fun v => v.getLsbD k) h
  simpa [BitVec.getLsbD_extractLsb', hk] using hbit

/-- Settles O13: each value of the field names its condition, an expression over the three flags. -/
theorem conditionTable : Obligations.ConditionTable := by
  refine ⟨fun fr => ⟨rfl, Iff.rfl, ?_, ?_, Iff.rfl, ?_, ?_, Iff.rfl⟩, fun c fr fr' h => ?_⟩
  · show (!flagZ fr) = true ↔ _
    simp [flagZ]
  · show (!flagZ fr && !flagN fr) = true ↔ _
    simp [flagZ, flagN]
  · show (flagZ fr || !flagN fr) = true ↔ _
    simp [flagZ, flagN]
  · show (flagZ fr || flagN fr) = true ↔ _
    simp [flagZ, flagN]
  · exact conditionHolds_congr c (getLsbD_eq_of_extractLsb'_eq h (by decide)) (getLsbD_eq_of_extractLsb'_eq h (by decide))
      (getLsbD_eq_of_extractLsb'_eq h (by decide))

/-- The flag stage writes FR, if it writes at all. -/
theorem flagStage_eq (f : Fields) (output : Word) (s : State) :
    flagStage f output s = { s with fr := if f.flg then writeZN s.fr output else s.fr } := by
  unfold flagStage
  split <;> rfl

theorem getLsbD_writeZN_zero (fr output : Word) : (writeZN fr output).getLsbD 0 = decide (output = 0x0000#16) := by
  unfold writeZN
  rw [getLsbD_writeBit, if_neg (by decide), getLsbD_writeBit, if_pos (by decide)]
  rfl

theorem getLsbD_writeZN_one (fr output : Word) : (writeZN fr output).getLsbD 1 = output.getLsbD 15 := by
  unfold writeZN
  rw [getLsbD_writeBit, if_pos (by decide)]

/-- Settles O16 (`flagStage` itself is the model's name): the stage is a write of Z and N, bit by bit. -/
theorem flagStageWritesZN : Obligations.FlagStage := by
  intro f output s
  refine ⟨⟨_, flagStage_eq f output s, fun h => by simp [h]⟩, fun h => ?_, fun k hk => ?_⟩
  · rw [flagStage_fr, if_pos h]
    exact ⟨getLsbD_writeZN_zero _ _, getLsbD_writeZN_one _ _⟩
  · rw [flagStage_fr]
    split
    · exact getLsbD_writeZN_high s.fr output hk
    · rfl

/-! ### Ignored instructions -/

/-- A reserved command with fields is the frame of its row around no body at all. -/
theorem exec_reserved {i : Instr} {f : Fields} (s : State) (hi : i.isDefined = false) (hf : i.fields? = some f) :
    exec i s = runReserved f s := by
  cases i with
  | reservedCmd1 g | reservedCmd35 g | reservedCmd36to39 _ g | reservedCmd40to47 _ g | reservedCmd48to63 _ g =>
    cases hf
    rfl
  | reservedBit15 => cases hf
  | _ => cases hi

theorem runCommand_ignored {f : Fields} (body : Word → Word → State → Res Word) {s : State}
    (h : conditionHolds f.cond s.fr = false) : runCommand f body s = .next (ignore f s) := by
  simp [runCommand, h]

theorem runReserved_ignored {f : Fields} {s : State} (h : conditionHolds f.cond s.fr = false) :
    runReserved f s = .next (ignore f s) := by
  simp [runReserved, h]

/-- With a false condition every instruction that has fields is ignored, the reserved commands too. -/
theorem exec_ignored {i : Instr} {f : Fields} {s : State} (hf : i.fields? = some f)
    (h : conditionHolds f.cond s.fr = false) : exec i s = .next (ignore f s) := by
  cases hi : i.isDefined with
  | false => exact (exec_reserved s hi hf).trans (runReserved_ignored h)
  | true =>
    obtain ⟨g, body, hg, hexec, _⟩ := exec_defined i hi
    cases hf.symm.trans hg
    exact (hexec s).trans (runCommand_ignored body h)

theorem passOpcode_awake {s : State} (h : s.halted = false) : passOpcode s = { s with ip := s.ip + 2#16 } := by
  rw [passOpcode, ← h]

theorem passImmediate_eq (m : Mode) (s : State) :
    passImmediate m s = { s with ip := s.ip + (if m = .immediate then 2#16 else 0#16) } := by
  cases m <;> simp [passImmediate]

/-- Settles O14: what is ignored passes its opcode word and its immediates, one after another. -/
theorem ignoredInstruction : Obligations.IgnoredInstruction := by
  intro i f s hawake hf hc
  rw [exec_ignored hf hc, ignore, passOpcode_awake hawake, passImmediate_eq, passImmediate_eq]

/-! ### The input stage -/

/-- The value of an input read in `s`, whose IP points at its immediate word. -/
def inputValue (m : Mode) (s : State) : Word :=
  match m with
  | .zero => 0x0000#16
  | .immediate => s.fetchMemory.readWord s.ip
  | .peek | .pop => s.mem.readWord s.sp

/-- The state after an input was read in `s`. -/
def afterInput (m : Mode) (s : State) : State :=
  { s with ip := s.ip + BitVec.ofNat 16 (immediateBytes m), sp := s.sp + BitVec.ofNat 16 (popBytes m) }

/-- An input of mode `m` can be read on a plain platform. -/
structure InputUsable (m : Mode) (s : State) : Prop where
  plain : s.Plain
  fetch : m = .immediate → s.FetchUsable
  stack : readsStack m = true → s.StackUsable

/-- One input on a plain platform. -/
theorem fetchInput_plain {m : Mode} {s : State} (h : InputUsable m s) :
    fetchInput m s = .ok (inputValue m s) (afterInput m s) := by
  obtain ⟨hplain, hfetch, hstack⟩ := h
  cases m with
  | zero => simp [fetchInput, inputValue, afterInput, immediateBytes, popBytes]
  | immediate =>
    obtain ⟨hdef, heven⟩ := hfetch rfl
    simp [fetchInput, inputValue, afterInput, immediateBytes, popBytes, addressIn_ip hdef, memFetch_plain hplain heven]
  | peek | pop =>
    obtain ⟨hdef, heven⟩ := hstack rfl
    simp [fetchInput, inputValue, afterInput, immediateBytes, popBytes, addressIn_sp hdef, memRead16_plain hplain heven]

theorem afterInput_fetchUsable {m : Mode} {s : State} (h : s.FetchUsable) : (afterInput m s).FetchUsable := by
  obtain ⟨hdef, heven⟩ := h
  refine ⟨hdef, ?_⟩
  cases m with
  | immediate => exact isEven_add_two heven
  | zero | peek | pop => simpa [afterInput, immediateBytes] using heven

theorem afterInput_stackUsable {m : Mode} {s : State} (h : s.StackUsable) : (afterInput m s).StackUsable := by
  obtain ⟨hdef, heven⟩ := h
  refine ⟨hdef, ?_⟩
  cases m with
  | pop => exact isEven_add_two heven
  | zero | immediate | peek => simpa [afterInput, popBytes] using heven

/-- An input stays readable when another one is read before it. -/
theorem InputUsable.afterInput {m : Mode} {s : State} (h : InputUsable m s) (m' : Mode) :
    InputUsable m (afterInput m' s) :=
  ⟨h.plain, fun hm => afterInput_fetchUsable (h.fetch hm), fun hm => afterInput_stackUsable (h.stack hm)⟩

/-- The input stage on a plain platform: one input, then the other from the state the first one left. -/
theorem inputStage_plain {f : Fields} {s : State} (h0 : InputUsable f.in0 s) (h1 : InputUsable f.in1 s) :
    inputStage f s = .ok (inputValue f.in0 s, inputValue f.in1 (afterInput f.in0 s))
      (afterInput f.in1 (afterInput f.in0 s)) := by
  rw [inputStage, fetchInput_plain h0, bind_ok, fetchInput_plain (h1.afterInput f.in0), bind_ok]

theorem operand0_eq_inputValue (f : Fields) (s : State) : operand0 f s = inputValue f.in0 (passOpcode s) := by
  unfold operand0 inputValue
  cases f.in0 <;> rfl

theorem operand1_eq_inputValue (f : Fields) (s : State) :
    operand1 f s = inputValue f.in1 (afterInput f.in0 (passOpcode s)) := by
  unfold operand1 inputValue
  cases f.in1 <;> rfl

theorem afterInputs_eq_afterInput {f : Fields} {s : State} (h : s.halted = false) :
    afterInputs f s = afterInput f.in1 (afterInput f.in0 (passOpcode s)) := by
  rw [passOpcode_awake h]
  rfl

/-- Behind the opcode word both inputs of an executed instruction can be read. -/
theorem inputUsable_of_executes {f : Fields} {s : State} (h : Executes f s) :
    InputUsable f.in0 (passOpcode s) ∧ InputUsable f.in1 (passOpcode s) := by
  obtain ⟨hplain, _, _, hfetch, hstack⟩ := h
  have hpast : s.FetchUsable → (passOpcode s).FetchUsable := fun ⟨hdef, heven⟩ => ⟨hdef, isEven_add_two heven⟩
  exact ⟨⟨hplain, fun hm => hpast (hfetch (.inl hm)), fun hm => hstack (.inl hm)⟩,
    ⟨hplain, fun hm => hpast (hfetch (.inr hm)), fun hm => hstack (.inr hm)⟩⟩

/-- The input stage of an executed instruction in closed form (40_instruction_cycle.md R116 to R119). -/
theorem inputStage_executes {f : Fields} {s : State} (h : Executes f s) :
    inputStage f (passOpcode s) = .ok (operand0 f s, operand1 f s) (afterInputs f s) := by
  obtain ⟨h0, h1⟩ := inputUsable_of_executes h
  obtain ⟨_, hawake, _⟩ := h
  rw [inputStage_plain h0 h1, operand0_eq_inputValue, operand1_eq_inputValue,
    afterInputs_eq_afterInput hawake]

/-- Settles O15: the three pairs of modes are read off the closed form. -/
theorem inputsInOrder : Obligations.InputsInOrder := by
  intro f s h
  refine ⟨inputStage_executes h, fun h0 h1 => ?_, fun h0 h1 => ?_, fun h0 h1 => ?_⟩
  · simp [operand0, operand1, afterInputs, spAfterInputs, popBytes, h0, h1, BitVec.add_assoc]
  · simp [operand0, operand1, afterInputs, spAfterInputs, popBytes, h0, h1]
  · simp [operand0, operand1, afterInputs, nextIp, immediateBytes, h0, h1, BitVec.add_assoc]

/-! ### Push and pop -/

/-- Settles O17: the pop reads the word just pushed, through the SP the push left. -/
theorem pushThenPop : Obligations.PushThenPop := by
  intro v s hplain hwf ⟨hdef, heven⟩
  have hbelow : IsEven (s.sp - 2#16) := isEven_sub_two heven
  have hpush := push_plain hplain hdef hbelow v
  have hpop : InputUsable .pop { s with sp := s.sp - 2#16, mem := s.mem.writeWord (s.sp - 2#16) v } :=
    ⟨hplain, nofun, fun _ => ⟨hdef, hbelow⟩⟩
  refine ⟨hpush, ?_⟩
  rw [hpush, bind_ok, fetchInput_plain hpop]
  simp [inputValue, afterInput, immediateBytes, popBytes, readWord_writeWord_same hwf]

/-! ### An interrupt phase that takes nothing -/

theorem raise_if_eq (signalled : Bool) (k : Nat) (s : State) :
    ∃ ir, (if signalled then raiseInterrupt k s else s) = { s with ir := ir } := by
  unfold raiseInterrupt
  split_ifs
  · exact ⟨_, rfl⟩
  · exact ⟨s.ir, rfl⟩
  · exact ⟨s.ir, rfl⟩

/-- The events of a step change IR and the event list only. -/
theorem externalEvents_eq (s : State) : ∃ ir, externalEvents s = { s with ir := ir, events := s.events.tail } := by
  obtain ⟨rst, hrst⟩ := raise_if_eq (eventsNow s).rst 0 (dropEvents s)
  obtain ⟨nmi, hnmi⟩ := raise_if_eq (eventsNow s).nmi 1 { dropEvents s with ir := rst }
  obtain ⟨irq, hirq⟩ := raise_if_eq (eventsNow s).irq 7 { dropEvents s with ir := nmi }
  exact ⟨irq, by simp only [externalEvents, hrst, hnmi, hirq]; rfl⟩

/-- If each triggered interrupt is masked, the loop of the phase enters none and changes nothing but IR. -/
theorem serviceInterrupts_masked {n : Nat} {taken : Bool} {s : State}
    (h : ∀ k, 1 ≤ k → k ≤ n → s.ir.getLsbD k = true → 4 ≤ k ∧ s.fr.getLsbD k = false) :
    ∃ ir, serviceInterrupts n taken s = .ok taken { s with ir := ir } := by
  induction n generalizing s with
  | zero => exact ⟨s.ir, rfl⟩
  | succ n ih =>
    unfold serviceInterrupts
    split
    · next hbit =>
      obtain ⟨hlow, hfr⟩ := h (n + 1) (by omega) le_rfl hbit
      rw [if_neg (by simp [hfr]; omega)]
      refine ih fun k h1 hk hir => h k h1 (by omega) ?_
      rwa [getLsbD_writeBit, if_neg (by omega)] at hir
    · exact ih fun k h1 hk => h k h1 (by omega)

/-- The whole loop empties an IR in which no reset was triggered. -/
theorem serviceInterrupts_ir {taken taken' : Bool} {s t : State} (h : serviceInterrupts 15 taken s = .ok taken' t)
    (hreset : s.ir.getLsbD 0 = false) : t.ir = 0x0000#16 := by
  obtain ⟨m, sp, ip, fr, ir, d, unset, rfl, _, _, hbits, _⟩ := serviceInterrupts_ok h
  refine BitVec.eq_of_getLsbD_eq fun k hk => (hbits k).trans ?_
  obtain rfl | hpos := Nat.eq_zero_or_pos k
  · rw [hreset, Bool.false_and, BitVec.getLsbD_zero]
  · have hloop : 1 ≤ k ∧ k ≤ 15 := by omega
    simp [hloop]

theorem servicePhase_noReset {s : State} (h : s.ir.getLsbD 0 = false) :
    servicePhase s = serviceInterrupts 15 false s := by
  simp only [servicePhase, h, Bool.false_eq_true, if_false]

theorem interruptPhase_markII {s t : State} {taken : Bool} (hv : s.cfg.variant = .markII)
    (h : servicePhase (externalEvents s) = .ok taken t) : interruptPhase s = .ok taken t := by
  simp [interruptPhase, hv, h]

/-- A phase of a Mark II in which each triggered interrupt is masked only empties IR and passes the events
(60_exceptions.md R265). -/
theorem interruptPhase_masked {s : State} (hv : s.cfg.variant = .markII)
    (h : ∀ k, k < 16 → (externalEvents s).ir.getLsbD k = true → 4 ≤ k ∧ s.fr.getLsbD k = false) :
    interruptPhase s = .ok false { s with ir := 0x0000#16, events := s.events.tail } := by
  have hreset : (externalEvents s).ir.getLsbD 0 = false := by
    by_contra hbit
    obtain ⟨hlow, _⟩ := h 0 (by decide) (by simpa using hbit)
    omega
  obtain ⟨ir, hloop⟩ := serviceInterrupts_masked (n := 15) (taken := false) (s := externalEvents s)
    fun k _ hk hir => by simpa using h k (by omega) hir
  obtain rfl : ir = 0x0000#16 := serviceInterrupts_ir hloop hreset
  obtain ⟨_, hevents⟩ := externalEvents_eq s
  rw [interruptPhase_markII hv ((servicePhase_noReset hreset).trans hloop), hevents]

/-- The phase of a Mark II-L without RST only passes the events. -/
theorem interruptPhase_markIIL {s : State} (hv : s.cfg.variant = .markIIL) (h : (eventsNow s).rst = false) :
    interruptPhase s = .ok false { s with events := s.events.tail } := by
  simp [interruptPhase, hv, resetPhaseMarkIIL, h, dropEvents]

theorem externalEvents_noEvent {s : State} (h : s.NoEvent) : externalEvents s = dropEvents s := by
  simp [externalEvents, show eventsNow s = _ from h]

/-- With nothing triggered and nothing signalled the phase of either variant only passes the events. -/
theorem interruptPhase_idle {s : State} (hev : s.NoEvent) (hir : s.ir = 0x0000#16) :
    interruptPhase s = .ok false { s with events := s.events.tail } := by
  cases hv : s.cfg.variant with
  | markIIL => exact interruptPhase_markIIL hv (by rw [show eventsNow s = _ from hev])
  | markII =>
    have hnone : (externalEvents s).ir = 0x0000#16 := by rw [externalEvents_noEvent hev, dropEvents_ir, hir]
    rw [interruptPhase_masked hv (by simp [hnone]), ← hir]

/-! ### The step after the phase -/

/-- A halted CPU that nothing woke stops after phase A (40_instruction_cycle.md R127). -/
theorem step_asleep {s t : State} (h : interruptPhase s = .ok false t) (ht : t.halted = true) : step s = .next t := by
  simp [step, h, ht]

/-- A CPU that runs or was woken goes on. -/
theorem step_goesOn {s t : State} {taken : Bool} (h : interruptPhase s = .ok taken t)
    (ht : t.halted = false ∨ taken = true) : step s = fetchAndExecute t := by
  obtain ht | ht := ht <;> simp [step, h, ht]

/-- Settles O49: the phase takes nothing and leaves the CPU halted. -/
theorem haltedStep : Obligations.HaltedStep := fun _ hhalt =>
  ⟨fun hv hmasked => step_asleep (interruptPhase_masked hv hmasked) hhalt,
    fun hv hrst => step_asleep (interruptPhase_markIIL hv hrst) hhalt⟩

/-- The opcode word at a usable IP is decoded and executed in the same state. -/
theorem fetchAndExecute_plain {i : Instr} {s : State} (hplain : s.Plain) (hip : s.FetchUsable)
    (hi : i.WellFormed = true) (hword : s.fetchMemory.readWord s.ip = encodeWord i) : fetchAndExecute s = exec i s := by
  obtain ⟨hdef, heven⟩ := hip
  have hfetch : fetchOpcode s = .ok (encodeWord i) s := by
    rw [fetchOpcode, addressIn_ip hdef, bind_ok, memFetch_plain hplain heven, hword]
  simp only [fetchAndExecute, hfetch, decodeEncodeWord i hi]

/-- Settles O47: an idle phase, then the fetch. -/
theorem stepRunsDecoded : Obligations.StepRunsDecoded := by
  intro i s hplain hev hir hawake hip hi hword
  rw [step_goesOn (interruptPhase_idle hev hir) (.inl hawake)]
  exact fetchAndExecute_plain hplain hip hi hword

/-! ### A plain platform meets no bus error -/

/-- The operation meets no bus error, and leaves a plain platform if it answers. -/
def StaysPlain {α : Type} : Res α → Prop
  | .ok _ t => t.Plain
  | .busError _ => False
  | .fault _ => True

theorem StaysPlain.not_busError {α : Type} {r : Res α} {t : State} (h : StaysPlain r) : r ≠ .busError t := by
  rintro rfl
  exact h

theorem StaysPlain.bind {α β : Type} {r : Res α} {k : α → State → Res β} (hr : StaysPlain r)
    (hk : ∀ a t, t.Plain → StaysPlain (k a t)) : StaysPlain (r.bind k) := by
  cases r with
  | ok a t => exact hk a t hr
  | busError t => exact hr.elim
  | fault e => trivial

/-- An operation followed by nothing but its answer. -/
theorem StaysPlain.answer {α β : Type} {r : Res α} (hr : StaysPlain r) (g : α → State → β) :
    StaysPlain (r.bind fun a t => .ok (g a t) t) :=
  hr.bind fun _ _ ht => ht

section Accesses

variable {s : State} (hs : s.Plain)
include hs

theorem addressIn_staysPlain (r : AddressRegister) : StaysPlain (addressIn r s) := by
  cases r <;> (unfold addressIn; dsimp only; split; exacts [trivial, hs])

theorem memRead8_staysPlain (a : Word) : StaysPlain (memRead8 a s) := by
  rw [memRead8_plain hs]
  exact hs

theorem memWrite8_staysPlain (a v : Word) : StaysPlain (memWrite8 a v s) := by
  rw [memWrite8_plain hs]
  exact hs

theorem memRead16_staysPlain (a : Word) : StaysPlain (memRead16 a s) := by
  by_cases ha : IsEven a
  · rw [memRead16_plain hs ha]
    exact hs
  · rw [memRead16_odd ha]
    trivial

theorem memFetch_staysPlain (a : Word) : StaysPlain (memFetch a s) := by
  by_cases ha : IsEven a
  · rw [memFetch_plain hs ha]
    exact hs
  · rw [memFetch_odd ha]
    trivial

theorem memWrite16_staysPlain (a v : Word) : StaysPlain (memWrite16 a v s) := by
  by_cases ha : IsEven a
  · rw [memWrite16_plain hs ha]
    exact hs
  · rw [memWrite16_odd ha]
    trivial

theorem writeFR_staysPlain (new : Word) : StaysPlain (writeFR new s) := by
  unfold writeFR
  split
  · exact hs
  · trivial

theorem jumpSettingFlags_staysPlain (target mask : Word) : StaysPlain (jumpSettingFlags target mask s) :=
  writeFR_staysPlain (s := loadIP target s) hs (s.fr ||| mask)

theorem push_staysPlain (v : Word) : StaysPlain (push v s) :=
  (addressIn_staysPlain hs .sp).bind fun sp t ht => memWrite16_staysPlain (s := { t with sp := sp - 2#16 }) ht _ v

theorem registerValue_plain (undefined : Bool) (v : Word) : (registerValue undefined v s).2.Plain := by
  cases undefined <;> exact hs

theorem raiseInterrupt_plain (k : Nat) : (raiseInterrupt k s).Plain := by
  rwa [State.Plain, raiseInterrupt_cfg]

theorem divideByZero_staysPlain : StaysPlain (divideByZero s) := raiseInterrupt_plain (s := (draw s).2) hs 4

theorem fetchInput_staysPlain (m : Mode) : StaysPlain (fetchInput m s) := by
  cases m with
  | zero => exact hs
  | immediate =>
    exact ((addressIn_staysPlain hs .ip).bind fun a _ ht => memFetch_staysPlain ht a).bind fun _ _ ht => ht
  | peek => exact (addressIn_staysPlain hs .sp).bind fun a _ ht => memRead16_staysPlain ht a
  | pop => exact ((addressIn_staysPlain hs .sp).bind fun a _ ht => memRead16_staysPlain ht a).bind fun _ _ ht => ht

theorem inputStage_staysPlain (f : Fields) : StaysPlain (inputStage f s) :=
  (fetchInput_staysPlain hs f.in0).bind fun _ _ ht => (fetchInput_staysPlain ht f.in1).answer _

theorem outputStage_staysPlain (f : Fields) (o : Word) : StaysPlain (outputStage f o s) := by
  unfold outputStage
  split
  · exact push_staysPlain hs o
  · exact hs

end Accesses

/-- The command body meets no bus error on a plain platform. -/
def BodyStaysPlain (body : Word → Word → State → Res Word) : Prop :=
  ∀ a b u, u.Plain → StaysPlain (body a b u)

theorem executeStages_staysPlain (f : Fields) {body : Word → Word → State → Res Word} (hbody : BodyStaysPlain body)
    {s : State} (hs : s.Plain) : StaysPlain (executeStages f body s) := by
  refine (inputStage_staysPlain hs f).bind fun inputs t ht => (hbody inputs.1 inputs.2 t ht).bind fun o u hu => ?_
  refine (outputStage_staysPlain hu f o).bind fun _ v hv => ?_
  rwa [StaysPlain, State.Plain, flagStage_cfg]

/-- Every defined instruction is its fields' frame around a body that meets no bus error on a plain platform. -/
theorem exec_defined_plain (i : Instr) (hi : i.isDefined = true) :
    ∃ f body, i.fields? = some f ∧ (∀ s, exec i s = runCommand f body s) ∧ BodyStaysPlain body := by
  cases i with
  | get f =>
    exact ⟨f, _, rfl, fun _ => rfl, fun _ _ _ hu =>
      (addressIn_staysPlain hu .bp).bind fun _ _ ht => memRead16_staysPlain ht _⟩
  | set f =>
    exact ⟨f, _, rfl, fun _ => rfl, fun _ b _ hu =>
      (addressIn_staysPlain hu .bp).bind fun _ _ ht => (memWrite16_staysPlain ht _ b).answer _⟩
  | store8 f => exact ⟨f, _, rfl, fun _ => rfl, fun a b _ hu => (memWrite8_staysPlain hu b a).answer _⟩
  | store16 f => exact ⟨f, _, rfl, fun _ => rfl, fun a b _ hu => (memWrite16_staysPlain hu b a).answer _⟩
  | load8 f => exact ⟨f, _, rfl, fun _ => rfl, fun a _ _ hu => (memRead8_staysPlain hu a).answer _⟩
  | load16 f => exact ⟨f, _, rfl, fun _ => rfl, fun a _ _ hu => memRead16_staysPlain hu a⟩
  | cpuid f =>
    refine ⟨f, _, rfl, fun _ => rfl, fun _ _ _ hu => ?_⟩
    split
    · exact hu
    · trivial
  | frset f => exact ⟨f, _, rfl, fun _ => rfl, fun _ _ _ hu => (writeFR_staysPlain hu _).answer _⟩
  | setip f | addip f =>
    exact ⟨f, _, rfl, fun _ => rfl, fun _ b _ hu => (jumpSettingFlags_staysPlain hu _ b).answer _⟩
  | bpget f | bpset f | spget f | spset f =>
    exact ⟨f, _, rfl, fun _ => rfl, fun _ _ _ hu => registerValue_plain hu _ _⟩
  | div f | mod f =>
    refine ⟨f, _, rfl, fun _ => rfl, fun _ _ _ hu => ?_⟩
    split
    · exact divideByZero_staysPlain hu
    · exact hu
  | intr f =>
    refine ⟨f, _, rfl, fun _ => rfl, fun _ _ _ hu => ?_⟩
    split_ifs
    · trivial
    · exact hu
    · trivial
  | copy f | halt f | frget f | add f | sub f | mul f | and f | or f | xor f | not f | signext f | rol f | ror f
  | bswap f | asr f | lsl f | lsr f =>
    exact ⟨f, _, rfl, fun _ => rfl, fun _ _ _ hu => hu⟩
  | reservedCmd1 | reservedCmd35 | reservedCmd36to39 | reservedCmd40to47 | reservedCmd48to63 | reservedBit15 => cases hi

/-! ### A CPU just woken -/

/-- The frame of a command reads `halted` only to take a bus error back, which a plain platform has none of. -/
theorem runCommand_awake (f : Fields) {body : Word → Word → State → Res Word} (hbody : BodyStaysPlain body) {s : State}
    (hs : s.Plain) : runCommand f body s = runCommand f body { s with halted := false } := by
  have hopcode : passOpcode { s with halted := false } = passOpcode s := rfl
  have hignore : ignore f { s with halted := false } = ignore f s := rfl
  unfold runCommand
  rw [hopcode, hignore]
  have hstages := executeStages_staysPlain f hbody (s := passOpcode s) hs
  cases h : executeStages f body (passOpcode s) with
  | busError t => exact absurd h hstages.not_busError
  | ok _ t => rfl
  | fault r => rfl

/-- On a plain platform an instruction of a CPU just woken is that of one that runs (60_exceptions.md R260). -/
theorem exec_awake (i : Instr) {s : State} (hs : s.Plain) : exec i s = exec i { s with halted := false } := by
  cases hi : i.isDefined with
  | true =>
    obtain ⟨f, body, _, hexec, hbody⟩ := exec_defined_plain i hi
    rw [hexec, hexec]
    exact runCommand_awake f hbody hs
  | false =>
    cases hf : i.fields? with
    | some f =>
      rw [exec_reserved _ hi hf, exec_reserved _ hi hf]
      rfl
    | none =>
      cases i with
      | reservedBit15 => rfl
      | _ => cases hf

/-- Settles O48: the step goes on with the fetch, and the instruction does not see that the CPU was halted. -/
theorem stepAfterInterrupts : Obligations.StepAfterInterrupts := by
  intro i s t taken hphase hgo hplain hip hi hword
  rw [step_goesOn hphase hgo, fetchAndExecute_plain hplain hip hi hword]
  exact exec_awake i hplain

end Sys2Proof.Machine
end

section
/-! PROOFS. The statements of 41_data_movement.md. An executed instruction on a plain platform answers what its command
body answers in `afterInputs`: `delivered` from the state the body leaves (`runCommand_delivers`), or the body's fault
(`runCommand_faults`). What is left of each command is its body's one access. -/

namespace Sys2Proof.Machine

/-! ### An executed instruction on a plain platform -/

/-- The output stage in closed form: a push through a usable SP, or nothing. -/
theorem outputStage_plain {f : Fields} {s : State} (hplain : s.Plain) (hpush : CanPush f s) (output : Word) :
    outputStage f output s = .ok () { s with
      sp := if f.out then s.sp - 2#16 else s.sp
      mem := if f.out then s.mem.writeWord (s.sp - 2#16) output else s.mem } := by
  cases hout : f.out with
  | false => simp [outputStage, hout]
  | true =>
    obtain ⟨hdef, heven⟩ := hpush hout
    simp [outputStage, hout, push_plain hplain hdef (isEven_sub_two heven)]

section RunCommand

variable {f : Fields} {body : Word → Word → State → Res Word} {s : State}

theorem afterInputs_plain (h : Executes f s) : (afterInputs f s).Plain := by
  obtain ⟨hplain, _⟩ := h
  exact hplain

/-- The execution stages of an executed instruction from its command body on, its inputs in closed form. -/
theorem executeStages_executes (h : Executes f s) :
    executeStages f body (passOpcode s) =
      (body (operand0 f s) (operand1 f s) (afterInputs f s)).bind fun output t =>
        (outputStage f output t).bind fun _ u => .ok () (flagStage f output u) := by
  rw [executeStages, inputStage_executes h, bind_ok]

/-- An executed instruction whose command body answers an output completes: the output is delivered from the state the
body left. -/
theorem runCommand_delivers {output : Word} {t : State} (h : Executes f s)
    (hbody : body (operand0 f s) (operand1 f s) (afterInputs f s) = .ok output t) (hplain : t.Plain)
    (hpush : CanPush f t) : runCommand f body s = .next (delivered f output t) := by
  have hstages : executeStages f body (passOpcode s) = .ok () (delivered f output t) := by
    rw [executeStages_executes h, hbody, bind_ok, outputStage_plain hplain hpush, bind_ok, flagStage_eq, writeZN_eq,
      delivered]
  obtain ⟨_, _, hcond, _⟩ := h
  rw [runCommand, if_pos hcond, hstages]

/-- An executed instruction stops where its command body does. -/
theorem runCommand_faults {r : Fault} (h : Executes f s)
    (hbody : body (operand0 f s) (operand1 f s) (afterInputs f s) = .fault r) : runCommand f body s = .fault r := by
  have hstages : executeStages f body (passOpcode s) = .fault r := by
    rw [executeStages_executes h, hbody, bind_fault]
  obtain ⟨_, _, hcond, _⟩ := h
  rw [runCommand, if_pos hcond, hstages]

end RunCommand

/-! ### The address of GET and SET -/

theorem addressIn_bp_undefined {s : State} (h : s.bpUndefined = true) :
    addressIn .bp s = .fault (.undefinedAddress .bp) := by
  simp [addressIn, h]

/-- `BP + 2 * index` is even exactly if BP is. -/
theorem isEven_indexedAddress {bp index : Word} : IsEven (indexedAddress bp index) ↔ IsEven bp := by
  simp only [IsEven, indexedAddress, BitVec.getLsbD, Nat.testBit_zero, decide_eq_false_iff_not, BitVec.toNat_add,
    BitVec.toNat_mul, show (2#16).toNat = 2 from rfl]
  omega

/-! ### The results -/

/-- Settles O18: the command body of COPY answers input0 and touches nothing. -/
theorem copyResult : Obligations.CopyResult := fun _ _ h hpush =>
  ⟨rfl, runCommand_delivers h rfl (afterInputs_plain h) hpush⟩

/-- Settles O19: the indexed address is even as BP is, so the one access through it answers. -/
theorem indexedResults : Obligations.IndexedResults := by
  intro f s h hpush ⟨hdef, heven⟩
  have hplain := afterInputs_plain h
  have hbp : addressIn .bp (afterInputs f s) = .ok s.bp (afterInputs f s) := addressIn_bp hdef
  have haddr : IsEven (indexedAddress s.bp (operand0 f s)) := isEven_indexedAddress.mpr heven
  constructor
  · refine runCommand_delivers h ?_ hplain hpush
    rw [hbp, bind_ok, memRead16_plain hplain haddr]
    rfl
  · refine runCommand_delivers h ?_ hplain hpush
    rw [hbp, bind_ok, memWrite16_plain hplain haddr, bind_ok]
    rfl

/-- Settles O20: one byte at any address, or one word at an even one, is stored before the output is delivered. -/
theorem storeResults : Obligations.StoreResults := by
  intro f s h hpush
  have hplain := afterInputs_plain h
  refine ⟨runCommand_delivers h ?_ hplain hpush, fun haddr => runCommand_delivers h ?_ hplain hpush⟩
  · rw [memWrite8_plain hplain, bind_ok]
    rfl
  · rw [memWrite16_plain hplain haddr, bind_ok]
    rfl

/-- Settles O21: one byte at any address, or one word at an even one, is read. -/
theorem loadResults : Obligations.LoadResults := by
  intro f s h hpush
  have hplain := afterInputs_plain h
  refine ⟨runCommand_delivers h ?_ hplain hpush, fun haddr => runCommand_delivers h ?_ hplain hpush⟩
  · rw [memRead8_plain hplain, bind_ok]
    rfl
  · exact memRead16_plain hplain haddr

/-- Settles O22: the fault is that of the command body's first use of an address. -/
theorem oddAddressCommandsFault : Obligations.OddAddressCommandsFault := by
  intro f s h
  refine ⟨fun hundef => ?_, fun hdef hodd => ?_, fun hodd => ?_, fun hodd => ?_⟩
  · have hbp : addressIn .bp (afterInputs f s) = .fault (.undefinedAddress .bp) := addressIn_bp_undefined hundef
    constructor <;> (refine runCommand_faults h ?_; rw [hbp, bind_fault])
  · have hbp : addressIn .bp (afterInputs f s) = .ok s.bp (afterInputs f s) := addressIn_bp hdef
    have haddr : ¬ IsEven (indexedAddress s.bp (operand0 f s)) := mt isEven_indexedAddress.mp hodd
    constructor
    · refine runCommand_faults h ?_
      rw [hbp, bind_ok, memRead16_odd haddr]
      rfl
    · refine runCommand_faults h ?_
      rw [hbp, bind_ok, memWrite16_odd haddr, bind_fault]
      rfl
  · refine runCommand_faults h ?_
    rw [memWrite16_odd hodd, bind_fault]
  · exact runCommand_faults h (memRead16_odd hodd _)

end Sys2Proof.Machine
end

section
/-! PROOFS. The statements of 42_system_registers.md. Each is the frame of an executed instruction (`runCommand_delivers`,
`runCommand_faults`) around one operation in `afterInputs`: a write of FR (`writeFR_legal`, `writeFR_reserved`) or a read
of BP or SP as a value (`registerValue_of_defined`, `registerValue_of_undefined`). -/

namespace Sys2Proof.Machine

/-! ### A write of FR -/

theorem writeFR_legal {new : Word} {s : State} (h : new &&& reservedFlags s.cfg.variant = 0x0000#16) :
    writeFR new s = .ok () { s with fr := new } := if_pos h

theorem writeFR_reserved {new : Word} {s : State} (h : new &&& reservedFlags s.cfg.variant ≠ 0x0000#16) :
    writeFR new s = .fault .reservedFlagBit := if_neg h

/-! ### A register read as a value -/

theorem registerValue_of_defined {undefined : Bool} (h : undefined = false) (v : Word) (s : State) :
    registerValue undefined v s = (v, s) := by
  rw [h, registerValue_defined]

theorem registerValue_of_undefined {undefined : Bool} (h : undefined = true) (v : Word) (s : State) :
    registerValue undefined v s = (Config.freeWord s.draws, { s with draws := s.draws + 1 }) := by
  rw [h, registerValue_undefined, draw]

/-- A write of a defined BP changes BP only: it is marked defined already. -/
theorem writeBp_of_defined {s : State} (h : s.bpUndefined = false) (v : Word) :
    { s with bp := v, bpUndefined := false } = { s with bp := v } := by
  rw [h]

/-- A write of a defined SP changes SP only: it is marked defined already. -/
theorem writeSp_of_defined {s : State} (h : s.spUndefined = false) (v : Word) :
    { s with sp := v, spUndefined := false } = { s with sp := v } := by
  rw [h]

/-! ### The results -/

/-- Settles O23: the two clauses are the two branches of the command body's test. -/
theorem cpuidResult : Obligations.CpuidResult := fun _ _ h hpush =>
  ⟨fun hzero => runCommand_delivers h (if_pos hzero) (afterInputs_plain h) hpush,
    fun hinput => runCommand_faults h (if_neg hinput)⟩

/-- Settles O24: the command body draws its output and sets `halted`, neither of which the push sees. -/
theorem haltResult : Obligations.HaltResult := by
  intro f s h hpush
  have hplain := afterInputs_plain h
  exact runCommand_delivers h rfl hplain hpush

/-- Settles O25: the input stage leaves FR as it is, and the command body only reads it. -/
theorem frgetResult : Obligations.FrgetResult := fun _ _ h hpush =>
  ⟨rfl, runCommand_delivers h rfl (afterInputs_plain h) hpush⟩

/-- Settles O26: the masked write is made if it leaves the reserved bits 0, and the output is the FR from before it. -/
theorem frsetResult : Obligations.FrsetResult := by
  rintro f s _ h hpush rfl
  have hplain := afterInputs_plain h
  refine ⟨fun hlegal => runCommand_delivers h ?_ hplain hpush, fun hreserved => runCommand_faults h ?_⟩
  · exact congrArg (Res.bind · _) (writeFR_legal (s := afterInputs f s) hlegal)
  · exact congrArg (Res.bind · _) (writeFR_reserved (s := afterInputs f s) hreserved)

/-- Settles O27: both commands read BP as a value in `afterInputs`; BPSET then writes it. -/
theorem bpResults : Obligations.BpResults := by
  intro f s h hpush
  have hplain := afterInputs_plain h
  refine ⟨fun hdef => ?_, fun hundef => ?_⟩
  · change (afterInputs f s).bpUndefined = false at hdef
    constructor
    · refine runCommand_delivers h ?_ hplain hpush
      rw [registerValue_of_defined hdef]
      rfl
    · refine runCommand_delivers h ?_ hplain hpush
      rw [registerValue_of_defined hdef]
      exact congrArg (Res.ok s.bp) (writeBp_of_defined hdef (operand0 f s))
  · change (afterInputs f s).bpUndefined = true at hundef
    constructor <;> (refine runCommand_delivers h ?_ hplain hpush; rw [registerValue_of_undefined hundef]; rfl)

/-- Settles O28: both commands read SP as a value in `afterInputs`; SPSET then writes it, and the output stage finds the
SP it wrote. -/
theorem spResults : Obligations.SpResults := by
  intro f s h
  have hplain := afterInputs_plain h
  refine ⟨fun hdef => ?_, fun hundef => ?_⟩
  · change (afterInputs f s).spUndefined = false at hdef
    constructor
    · intro hpush
      refine runCommand_delivers h ?_ hplain hpush
      rw [registerValue_of_defined hdef]
      rfl
    · rintro _ rfl hpush
      refine runCommand_delivers h ?_ hplain hpush
      rw [registerValue_of_defined hdef]
      exact congrArg (Res.ok (spAfterInputs f s)) (writeSp_of_defined hdef (operand0 f s))
  · change (afterInputs f s).spUndefined = true at hundef
    constructor
    · intro hpush
      refine runCommand_delivers h ?_ hplain hpush
      rw [registerValue_of_undefined hundef]
      rfl
    · rintro _ rfl hpush
      refine runCommand_delivers h ?_ hplain hpush
      rw [registerValue_of_undefined hundef]
      rfl

end Sys2Proof.Machine
end

section
/-! PROOFS. The statements of 43_arithmetic.md. Each command is the frame of an executed instruction
(`runCommand_delivers`) around a function of the two inputs, FR and the parameters; the lemmas put that function in the
terms of the rule. For DIV and MOD the remainder is the library's for either rounding (`sub_mul_signedQuotient`), and
the division law of the integers alone keeps the quotient inside a word (`quotient_inWordRange`). -/

namespace Sys2Proof.Machine

/-! ### ADD and SUB -/

theorem carryIn_eq (fr : Word) : carryIn fr = if fr.getLsbD 2 = true ∧ fr.getLsbD 3 = true then 1 else 0 := by
  unfold carryIn flagC flagCE
  cases fr.getLsbD 2 <;> cases fr.getLsbD 3 <;> rfl

theorem ofInt_subDifference (a b : Word) (bin : Nat) :
    BitVec.ofInt 16 (subDifference a b bin) = a - b - BitVec.ofNat 16 bin := by
  simp only [subDifference, Int.sub_eq_add_neg, BitVec.ofInt_add, BitVec.ofInt_neg, BitVec.ofInt_natCast,
    BitVec.ofNat_toNat, BitVec.setWidth_eq, BitVec.sub_eq_add_neg]

theorem subDifference_neg_iff (a b : Word) (bin : Nat) : subDifference a b bin < 0 ↔ a.toNat < b.toNat + bin := by
  unfold subDifference
  omega

/-- Settles O29: the carry-in is the one term of the sum that the model and the rule write differently. -/
theorem addResult : Obligations.AddResult := by
  rintro f s _ h hpush rfl
  have hplain := afterInputs_plain h
  refine ⟨rfl, runCommand_delivers h ?_ hplain hpush⟩
  rw [writeC_eq, carryIn_eq]
  rfl

/-- Settles O30: the unbounded difference is negative exactly if there is a borrow. -/
theorem subResult : Obligations.SubResult := by
  rintro f s _ h hpush rfl
  have hplain := afterInputs_plain h
  refine runCommand_delivers h ?_ hplain hpush
  rw [writeC_eq, carryIn_eq, ofInt_subDifference, decide_eq_decide.mpr (subDifference_neg_iff _ _ _)]
  rfl

/-! ### MUL -/

/-- Either 32-bit product has the same low word. -/
theorem ofNat_mulProduct (m : MulCarry) (a b : Word) : BitVec.ofNat 16 (mulProduct m a b) = a * b := by
  cases m with
  | unsigned => simp [mulProduct, BitVec.ofNat_mul]
  | signed =>
    have hlow : BitVec.ofNat 16 ((a.toInt * b.toInt) % 2 ^ 32).toNat = BitVec.ofInt 16 (a.toInt * b.toInt) := by
      apply BitVec.eq_of_toNat_eq
      rw [BitVec.toNat_ofNat, BitVec.toNat_ofInt]
      omega
    rw [mulProduct, hlow, BitVec.ofInt_mul, BitVec.ofInt_toInt, BitVec.ofInt_toInt]

/-- The signed product lies in `[-2^30, 2^30]`, so modulo `2^32` a negative one keeps bits in its upper half. -/
theorem mulProduct_signed_carry_iff (a b : Word) :
    2 ^ 16 ≤ mulProduct .signed a b ↔ a.toInt * b.toInt < 0 ∨ 65536 ≤ a.toInt * b.toInt := by
  have hlow : -2 ^ 30 ≤ a.toInt * b.toInt := BitVec.le_toInt_mul_toInt
  have hhigh : a.toInt * b.toInt ≤ 2 ^ 30 := BitVec.toInt_mul_toInt_le
  rw [mulProduct]
  omega

/-- Settles O31: the carry is the model's test of the product that the parameter names. -/
theorem mulResult : Obligations.MulResult := by
  intro f s h hpush
  have hplain := afterInputs_plain h
  refine ⟨decide (2 ^ 16 ≤ mulProduct s.cfg.mulCarry (operand0 f s) (operand1 f s)),
    runCommand_delivers h ?_ hplain hpush, ?_, fun hm => ?_, fun hm => ?_⟩
  · rw [writeC_eq, ofNat_mulProduct]
    rfl
  · rw [BitVec.ofInt_mul, BitVec.ofInt_toInt, BitVec.ofInt_toInt]
  · rw [hm, decide_eq_true_iff]
    rfl
  · rw [hm, decide_eq_true_iff, mulProduct_signed_carry_iff]

/-! ### The signed division of integers -/

/-- The remainder that goes with `signedQuotient`. -/
def signedRemainder (r : DivRounding) (a b : Int) : Int :=
  match r with
  | .truncate => a.tmod b
  | .floor => a.fmod b

/-- The model's `a - b * quotient` is the library's remainder, for either rounding. -/
theorem sub_mul_signedQuotient (r : DivRounding) (a b : Int) :
    a - b * signedQuotient r a b = signedRemainder r a b := by
  cases r with
  | truncate => exact (Int.tmod_def a b).symm
  | floor => exact (Int.fmod_def a b).symm

theorem signedQuotient_mul_add (r : DivRounding) (a b : Int) :
    signedQuotient r a b * b + signedRemainder r a b = a := by
  rw [← sub_mul_signedQuotient]
  ring

/-- The floored remainder has the divisor's sign and is smaller. -/
theorem abs_fmod_lt (a : Int) {b : Int} (hb : b ≠ 0) : |a.fmod b| < |b| := by
  obtain hneg | hpos := lt_or_gt_of_ne hb
  · have hswap := Int.neg_fmod_neg (-a) (-b)
    rw [neg_neg, neg_neg] at hswap
    rw [hswap, abs_neg, abs_of_nonneg (Int.fmod_nonneg_of_pos _ (by omega)), abs_of_neg hneg]
    exact Int.fmod_lt_of_pos _ (by omega)
  · rw [abs_of_nonneg (Int.fmod_nonneg_of_pos _ hpos), abs_of_pos hpos]
    exact Int.fmod_lt_of_pos _ hpos

theorem abs_signedRemainder_lt (r : DivRounding) (a : Int) {b : Int} (hb : b ≠ 0) : |signedRemainder r a b| < |b| := by
  cases r with
  | floor => exact abs_fmod_lt a hb
  | truncate =>
    rw [Int.abs_eq_natAbs, Int.abs_eq_natAbs, signedRemainder, Int.natAbs_tmod]
    exact_mod_cast Nat.mod_lt _ (Int.natAbs_pos.mpr hb)

/-! ### Signed words -/

/-- The integers a word holds as a signed number. -/
def InWordRange (i : Int) : Prop := -32768 ≤ i ∧ i < 32768

theorem toInt_inWordRange (w : Word) : InWordRange w.toInt := ⟨w.le_toInt, w.toInt_lt⟩

theorem toInt_ofInt_of_inWordRange {i : Int} : InWordRange i → (BitVec.ofInt 16 i).toInt = i :=
  fun ⟨hlow, hhigh⟩ => BitVec.toInt_ofInt_eq_self (by decide) hlow hhigh

/-- The division law leaves no quotient outside a word but that of -32768 by -1: with any other one `q * b` is farther
from `a` than a remainder reaches. -/
theorem quotient_inWordRange {a b q r : Int} (law : q * b + r = a) (hr : |r| < |b|) (ha : InWordRange a)
    (hfits : ¬(a = -32768 ∧ b = -1)) : InWordRange q := by
  obtain ⟨halow, hahigh⟩ := ha
  obtain ⟨hrlow, hrhigh⟩ := abs_lt.mp hr
  obtain hneg | rfl | hpos := lt_trichotomy b 0
  · rw [abs_of_neg hneg] at hrlow hrhigh
    constructor <;> by_contra hq
    · have hfar : -32769 * b ≤ q * b := mul_le_mul_of_nonpos_right (by omega) hneg.le
      omega
    · have hfar : q * b ≤ 32768 * b := mul_le_mul_of_nonpos_right (by omega) hneg.le
      obtain rfl | hb : b = -1 ∨ b ≤ -2 := by omega
      all_goals omega
  · exact absurd hr (by simp)
  · rw [abs_of_pos hpos] at hrlow hrhigh
    constructor <;> by_contra hq
    · have hfar : q * b ≤ -32769 * b := mul_le_mul_of_nonneg_right (by omega) hpos.le
      omega
    · have hfar : 32768 * b ≤ q * b := mul_le_mul_of_nonneg_right (by omega) hpos.le
      omega

/-- A remainder is smaller than its divisor, so it fits where the divisor does. -/
theorem remainder_inWordRange {b r : Int} (hr : |r| < |b|) (hb : InWordRange b) : InWordRange r := by
  obtain ⟨hblow, hbhigh⟩ := hb
  have hsize : |b| ≤ 32768 := abs_le.mpr ⟨hblow, by omega⟩
  obtain ⟨hrlow, hrhigh⟩ := abs_lt.mp (hr.trans_le hsize)
  exact ⟨hrlow.le, hrhigh⟩

/-! ### The words DIV and MOD deliver -/

theorem divisionOverflows_iff (a b : Word) : divisionOverflows a b = true ↔ a = 0x8000#16 ∧ b = 0xFFFF#16 := by
  simp [divisionOverflows]

section Words

variable {a b : Word}

theorem divQuotient_of_overflow (c : Config) (h : a = 0x8000#16 ∧ b = 0xFFFF#16) :
    divQuotient c a b = c.divOverflowQuotient :=
  if_pos ((divisionOverflows_iff a b).mpr h)

theorem modRemainder_of_overflow (c : Config) (h : a = 0x8000#16 ∧ b = 0xFFFF#16) :
    modRemainder c a b = c.divOverflowRemainder :=
  if_pos ((divisionOverflows_iff a b).mpr h)

theorem divQuotient_of_fits (c : Config) (h : ¬(a = 0x8000#16 ∧ b = 0xFFFF#16)) :
    divQuotient c a b = BitVec.ofInt 16 (signedQuotient c.divRounding a.toInt b.toInt) :=
  if_neg (mt (divisionOverflows_iff a b).mp h)

theorem modRemainder_of_fits (c : Config) (h : ¬(a = 0x8000#16 ∧ b = 0xFFFF#16)) :
    modRemainder c a b = BitVec.ofInt 16 (signedRemainder c.divRounding a.toInt b.toInt) := by
  rw [← sub_mul_signedQuotient]
  exact if_neg (mt (divisionOverflows_iff a b).mp h)

/-- The overflow pair, as signed numbers. -/
theorem overflow_of_toInt : a.toInt = -32768 ∧ b.toInt = -1 → a = 0x8000#16 ∧ b = 0xFFFF#16 :=
  fun ⟨ha, hb⟩ => ⟨BitVec.eq_of_toInt_eq ha, BitVec.eq_of_toInt_eq hb⟩

end Words

/-! ### Division by 0 -/

/-- `DivideByZero()` in closed form: one draw, and IR[4] on a Mark II with FR[4]. -/
theorem divideByZero_eq (s : State) :
    divideByZero s = .ok (Config.freeWord s.draws) { s with
      draws := s.draws + 1
      ir := if s.cfg.variant = .markII ∧ s.fr.getLsbD 4 = true then s.ir ||| 0x0010#16 else s.ir } := by
  have hmaskable : (4 < 4 ∨ s.fr.getLsbD 4 = true) = (s.fr.getLsbD 4 = true) := by simp
  simp only [divideByZero, draw, raiseInterrupt, hmaskable]
  split <;> rfl

/-! ### The results -/

/-- Settles O32: the words of the statement are the model's, on the overflow pair and for either rounding outside it. -/
theorem divModResults : Obligations.DivModResults := by
  intro f s q r h hpush hdivisor hwords
  have hmodel : q = divQuotient s.cfg (operand0 f s) (operand1 f s) ∧
      r = modRemainder s.cfg (operand0 f s) (operand1 f s) := by
    split_ifs at hwords with hover
    · rwa [divQuotient_of_overflow _ hover, modRemainder_of_overflow _ hover]
    · rw [divQuotient_of_fits _ hover, modRemainder_of_fits _ hover]
      cases hr : s.cfg.divRounding with
      | truncate | floor =>
        rw [hr] at hwords
        exact hwords
  obtain ⟨rfl, rfl⟩ := hmodel
  have hplain := afterInputs_plain h
  exact ⟨runCommand_delivers h (if_neg hdivisor) hplain hpush, runCommand_delivers h (if_neg hdivisor) hplain hpush⟩

/-- Settles O33: the law of the integers, whose quotient and remainder both fit a word. -/
theorem divisionLaw : Obligations.DivisionLaw := by
  intro c a b hb hover
  have hdivisor : b.toInt ≠ 0 := mt (fun h => BitVec.eq_of_toInt_eq h) hb
  have hlaw := signedQuotient_mul_add c.divRounding a.toInt b.toInt
  have hsmall := abs_signedRemainder_lt c.divRounding a.toInt hdivisor
  have hq := quotient_inWordRange hlaw hsmall (toInt_inWordRange a) (mt overflow_of_toInt hover)
  have hr := remainder_inWordRange hsmall (toInt_inWordRange b)
  rw [divQuotient_of_fits c hover, modRemainder_of_fits c hover, toInt_ofInt_of_inWordRange hq,
    toInt_ofInt_of_inWordRange hr]
  exact ⟨hlaw, hsmall⟩

/-- Settles O34: the draw and the write of IR leave what the push reads. -/
theorem divisionByZero : Obligations.DivisionByZero := by
  rintro f s h hpush hdivisor _ rfl
  have hplain := afterInputs_plain h
  have hzero := divideByZero_eq (afterInputs f s)
  exact ⟨runCommand_delivers h ((if_pos hdivisor).trans hzero) hplain hpush,
    runCommand_delivers h ((if_pos hdivisor).trans hzero) hplain hpush⟩

end Sys2Proof.Machine
end

section
/-! PROOFS. The statements of 44_logic_shift.md. Each command is the frame of an executed instruction around a function
of its inputs (`runCommand_pure`); the lemmas put the model's masks and concatenations in the terms of the statements.
ROL, ROR and BSWAP are one exchange of a word's two parts (`extractLsb'_append_swap`), cut at different bits. -/

namespace Sys2Proof.Machine

/-- An executed instruction whose command body is a function of its inputs (44_logic_shift.md R200) delivers that
function's value and changes nothing else. -/
theorem runCommand_pure {f : Fields} {s : State} {command : Word → Word → Word} {output : Word} (h : Executes f s)
    (hpush : CanPush f (afterInputs f s)) (houtput : command (operand0 f s) (operand1 f s) = output) :
    runCommand f (fun input0 input1 u => .ok (command input0 input1) u) s =
      .next (delivered f output (afterInputs f s)) :=
  runCommand_delivers h (congrArg (Res.ok · _) houtput) (afterInputs_plain h) hpush

/-! ### AND, OR, XOR, NOT -/

/-- Settles O35: the statement writes NOT as XOR with all ones. -/
theorem logicResults : Obligations.LogicResults := fun _ _ h hpush =>
  ⟨⟨rfl, rfl, rfl, rfl⟩, runCommand_pure h hpush rfl, runCommand_pure h hpush rfl, runCommand_pure h hpush rfl,
    runCommand_pure h hpush BitVec.allOnes_xor.symm⟩

/-! ### The two parts of a word -/

/-- A word cut at bit `n`, its two parts exchanged: each part is shifted to its new place. -/
theorem extractLsb'_append_swap (n m : Nat) (x : BitVec (n + m)) :
    x.extractLsb' 0 n ++ x.extractLsb' n m = x <<< m ||| x >>> n := by
  refine BitVec.eq_of_getLsbD_eq fun i hi => ?_
  rw [BitVec.getLsbD_or, BitVec.getLsbD_shiftLeft, BitVec.getLsbD_ushiftRight, BitVec.getLsbD_append]
  by_cases hlow : i < m
  · simp [hlow]
  · have hpast : x.getLsbD (n + i) = false := BitVec.getLsbD_of_ge x _ (by omega)
    simp [hlow, hpast, show i - m < n by omega, hi]

/-! ### SIGNEXT and BSWAP -/

section Bytes

variable (x : Word)

theorem lowMask_and : 0x00FF#16 &&& x = 0#8 ++ x.extractLsb' 0 8 :=
  calc 0x00FF#16 &&& x
    _ = (0#8 ++ BitVec.allOnes 8) &&& (x.extractLsb' 8 8 ++ x.extractLsb' 0 8) :=
      congrArg (0x00FF#16 &&& ·) (append_halves x).symm
    _ = 0#8 ++ x.extractLsb' 0 8 := by rw [BitVec.and_append, BitVec.zero_and, BitVec.allOnes_and]

theorem highMask_or : 0xFF00#16 ||| x = BitVec.allOnes 8 ++ x.extractLsb' 0 8 :=
  calc 0xFF00#16 ||| x
    _ = (BitVec.allOnes 8 ++ 0#8) ||| (x.extractLsb' 8 8 ++ x.extractLsb' 0 8) :=
      congrArg (0xFF00#16 ||| ·) (append_halves x).symm
    _ = BitVec.allOnes 8 ++ x.extractLsb' 0 8 := by rw [BitVec.or_append, BitVec.allOnes_or, BitVec.zero_or]

/-- Bit 7 is the sign of the low byte, and the two masks of R205 put copies of it above that byte. -/
theorem signextMask_eq_signExtend :
    (if x.getLsbD 7 then 0xFF00#16 ||| x else 0x00FF#16 &&& x) = (x.extractLsb' 0 8).signExtend 16 := by
  have hsign : (x.extractLsb' 0 8).msb = x.getLsbD 7 := by simp [BitVec.msb_eq_getLsbD_last]
  rw [BitVec.signExtend_eq_append_of_le (by decide), hsign, highMask_or, lowMask_and]
  split <;> rfl

theorem lowByte_append_zero : x.extractLsb' 0 8 ++ 0#8 = x <<< 8 :=
  (BitVec.shiftLeft_eq_concat_of_lt (w := 16) (n := 8) (by decide)).symm

/-- What the mask clears is shifted out. -/
theorem and_lowMask_shiftLeft : (x &&& 0x00FF#16) <<< 8 = x <<< 8 := by
  rw [← lowByte_append_zero, BitVec.and_comm, lowMask_and, BitVec.extractLsb'_append_eq_right, lowByte_append_zero]

theorem swapBytes_eq_shifts :
    x.extractLsb' 0 8 ++ x.extractLsb' 8 8 = ((x &&& 0x00FF#16) <<< 8) ||| (x >>> 8) := by
  rw [and_lowMask_shiftLeft]
  exact extractLsb'_append_swap 8 8 x

end Bytes

/-- Settles O36: the masks of SIGNEXT and the concatenation of BSWAP in the terms of the statement. -/
theorem byteResults : Obligations.ByteResults := fun _ _ h hpush =>
  ⟨⟨rfl, rfl⟩, runCommand_pure h hpush (signextMask_eq_signExtend _), runCommand_pure h hpush (swapBytes_eq_shifts _)⟩

/-! ### ROL, ROR, ASR, LSL, LSR -/

section Shifts

variable (x : Word)

theorem concat_eq_rotateLeft : x.extractLsb' 0 15 ++ x.extractLsb' 15 1 = x.rotateLeft 1 := by
  rw [BitVec.rotateLeft_def]
  exact extractLsb'_append_swap 15 1 x

theorem concat_eq_rotateRight : x.extractLsb' 0 1 ++ x.extractLsb' 1 15 = x.rotateRight 1 := by
  rw [BitVec.rotateRight_def, BitVec.or_comm]
  exact extractLsb'_append_swap 1 15 x

/-- Bits 14 to 0 come from one position above; bit 15 keeps the sign. -/
theorem concat_eq_sshiftRight : x.extractLsb' 15 1 ++ x.extractLsb' 1 15 = x.sshiftRight 1 := by
  refine BitVec.eq_of_getLsbD_eq fun i hi => ?_
  rw [BitVec.getLsbD_append, BitVec.getLsbD_sshiftRight]
  by_cases hlow : i < 15
  · simp [hlow, show 1 + i < 16 by omega, show i < 16 from hi]
  · obtain rfl : i = 15 := by omega
    simp [BitVec.msb_eq_getLsbD_last]

theorem concat_eq_shiftLeft : x.extractLsb' 0 15 ++ 0#1 = x <<< 1 :=
  (BitVec.shiftLeft_eq_concat_of_lt (w := 16) (n := 1) (by decide)).symm

theorem concat_eq_ushiftRight : 0#1 ++ x.extractLsb' 1 15 = x >>> 1 :=
  (BitVec.ushiftRight_eq_extractLsb'_of_lt (w := 16) (n := 1) (by decide)).symm

end Shifts

/-- Settles O37: each concatenation is the library's rotation or shift by one position. -/
theorem shiftResults : Obligations.ShiftResults := fun _ _ h hpush =>
  ⟨⟨rfl, rfl, rfl, rfl, rfl⟩, runCommand_pure h hpush (concat_eq_rotateLeft _),
    runCommand_pure h hpush (concat_eq_rotateRight _), runCommand_pure h hpush (concat_eq_sshiftRight _),
    runCommand_pure h hpush (concat_eq_shiftLeft _), runCommand_pure h hpush (concat_eq_ushiftRight _)⟩

end Sys2Proof.Machine
end

section
/-! PROOFS. The statements of 45_control.md. Each is the frame of an executed instruction (`runCommand_delivers`,
`runCommand_faults`) around one write in `afterInputs`: the jumps write IP and then FR, whose reserved bits alone decide
whether they complete (`jumpSettingFlags_legal`, `jumpSettingFlags_reserved`); INTR writes IR behind two tests. -/

namespace Sys2Proof.Machine

/-! ### SETIP and ADDIP -/

section Jump

variable {target mask : Word} {s : State}

theorem jumpSettingFlags_legal (h : (s.fr ||| mask) &&& reservedFlags s.cfg.variant = 0x0000#16) :
    jumpSettingFlags target mask s = .ok () { s with ip := target, ipUndefined := false, fr := s.fr ||| mask } :=
  writeFR_legal (s := loadIP target s) h

theorem jumpSettingFlags_reserved (h : (s.fr ||| mask) &&& reservedFlags s.cfg.variant ≠ 0x0000#16) :
    jumpSettingFlags target mask s = .fault .reservedFlagBit :=
  writeFR_reserved (s := loadIP target s) h

end Jump

section RunJump

variable {f : Fields} {s : State}

/-- SETIP and ADDIP differ in the target, a function of input0 and of the state behind the inputs. The output is the IP
of that state, not the target. -/
theorem runCommand_jumps (target : Word → State → Word) (h : Executes f s) (hpush : CanPush f (afterInputs f s))
    (hlegal : (s.fr ||| operand1 f s) &&& reservedFlags s.cfg.variant = 0x0000#16) :
    runCommand f (fun a b u => (jumpSettingFlags (target a u) b u).bind fun _ t => .ok u.ip t) s =
      .next (delivered f (nextIp f s) { afterInputs f s with
        ip := target (operand0 f s) (afterInputs f s), ipUndefined := false, fr := s.fr ||| operand1 f s }) := by
  have hplain := afterInputs_plain h
  refine runCommand_delivers h ?_ hplain hpush
  rw [jumpSettingFlags_legal (s := afterInputs f s) hlegal, bind_ok]
  rfl

theorem runCommand_jump_faults (target : Word → State → Word) (h : Executes f s)
    (hreserved : (s.fr ||| operand1 f s) &&& reservedFlags s.cfg.variant ≠ 0x0000#16) :
    runCommand f (fun a b u => (jumpSettingFlags (target a u) b u).bind fun _ t => .ok u.ip t) s =
      .fault .reservedFlagBit := by
  refine runCommand_faults h ?_
  rw [jumpSettingFlags_reserved (s := afterInputs f s) hreserved, bind_fault]

end RunJump

/-- Settles O38: input0 is SETIP's target, and ADDIP's offset from the IP that the input stage left. -/
theorem jumpResults : Obligations.JumpResults := fun _ _ h hpush =>
  ⟨fun hlegal => ⟨runCommand_jumps (fun input0 _ => input0) h hpush hlegal,
      runCommand_jumps (fun input0 u => u.ip + input0) h hpush hlegal⟩,
    fun hreserved => ⟨runCommand_jump_faults (fun input0 _ => input0) h hreserved,
      runCommand_jump_faults (fun input0 u => u.ip + input0) h hreserved⟩⟩

/-! ### INTR -/

/-- Settles O39: the three clauses are the branches of the command body's tests, of the variant and then of input0. -/
theorem intrResult : Obligations.IntrResult := by
  intro f s h hpush
  have hplain := afterInputs_plain h
  have hasIR : s.cfg.variant = .markII → s.cfg.variant ≠ .markIIL := fun hII => hII.trans_ne (by decide)
  refine ⟨fun hII hlegal => ?_, fun hII hreserved => ?_, fun hIIL => ?_⟩
  · exact runCommand_delivers h ((if_neg (hasIR hII)).trans (if_pos hlegal)) hplain hpush
  · exact runCommand_faults h ((if_neg (hasIR hII)).trans (if_neg hreserved))
  · exact runCommand_faults h (if_pos hIIL)

end Sys2Proof.Machine
end

section
/-! PROOFS. The statements of 60_exceptions.md. On a plain platform entering an interrupt leaves `entered b s`, a closed
form (`enterInterrupt_plain`), and the loop of the phase leaves one such entry after another (`serviceInterrupts_plain`).
A bus error is met by the one access that is answered with BUS, and whatever stage that access is in, the frame answers
the state before the instruction with IR[2] set (`runCommand_takenBack`, `rollback_markII`). -/

namespace Sys2Proof.Machine

/-! ### Single bits -/

theorem bitMask_eq_two_pow (k : Nat) : bitMask k = BitVec.ofNat 16 (2 ^ k) := by
  apply BitVec.eq_of_toNat_eq
  simp [bitMask, Nat.shiftLeft_eq]

/-- Clearing a bit that is 0 changes nothing. -/
theorem writeBit_false_of_clear {w : Word} {k : Nat} (h : w.getLsbD k = false) : writeBit w k false = w := by
  refine BitVec.eq_of_getLsbD_eq fun i _ => ?_
  rw [getLsbD_writeBit]
  split
  · next hi => rw [hi.2, h]
  · rfl

/-- Bit `i` after bit `k` was cleared. -/
theorem getLsbD_clearBit (w : Word) (k i : Nat) :
    (writeBit w k false).getLsbD i = (w.getLsbD i && !decide (i = k)) := by
  rw [getLsbD_writeBit]
  by_cases hk : i = k
  · subst hk
    by_cases hi : i < 16
    · simp [hi]
    · simp [BitVec.getLsbD_of_ge w i (by omega)]
  · simp [hk]

/-! ### Events and reset -/

/-- What one pin does on a Mark II: its bit of IR is set if it is signalled and not masked. -/
theorem raise_if_markII {s : State} (hv : s.cfg.variant = .markII) (signalled : Bool) (k : Nat) :
    (if signalled then raiseInterrupt k s else s) =
      { s with ir := s.ir |||
          (if signalled = true ∧ (k < 4 ∨ s.fr.getLsbD k = true) then bitMask k else 0x0000#16) } := by
  cases signalled with
  | false => simp
  | true => by_cases hk : k < 4 ∨ s.fr.getLsbD k = true <;> simp [raiseInterrupt, hv, hk]

/-- Settles O52: the three pins one after another, of which only IRQ can be masked. -/
theorem eventsRaise : Obligations.EventsRaise := by
  intro s hv
  have hpins := fun (ir : Word) => raise_if_markII (s := { dropEvents s with ir := ir }) hv
  have hrst := hpins (dropEvents s).ir (eventsNow s).rst 0
  simp only [externalEvents, hrst, hpins]
  simp [dropEvents, bitMask]

/-- The reset sequence on a plain platform. -/
theorem takeReset_plain {s : State} (hplain : s.Plain) :
    takeReset s = .ok () { s with
      ip := s.fetchMemory.readWord 0x0000#16, fr := 0x0000#16, ir := 0x0000#16, halted := false
      spUndefined := true, bpUndefined := true, ipUndefined := false } := by
  rw [takeReset, memFetch_plain hplain (by decide), bind_ok]
  rfl

/-- Settles O53: a triggered reset is taken from the state that the events left, which differs in IR and the event list
only. -/
theorem resetSequence : Obligations.ResetSequence := by
  intro s hv hplain hreset
  obtain ⟨ir, hevents⟩ := externalEvents_eq s
  have htake := takeReset_plain (s := { s with ir := ir, events := s.events.tail }) hplain
  apply interruptPhase_markII hv
  rw [servicePhase, if_pos hreset, hevents, htake, bind_ok]
  rfl

/-! ### Entering one interrupt -/

theorem push_undefined {s : State} (h : s.spUndefined = true) (v : Word) :
    push v s = .fault (.undefinedAddress .sp) := by
  rw [push, addressIn_sp_undefined h, bind_fault]

theorem push_odd {s : State} (hdef : s.spUndefined = false) (hodd : ¬ IsEven s.sp) (v : Word) :
    push v s = .fault (.misaligned (s.sp - 2#16)) := by
  rw [push, addressIn_sp hdef, bind_ok, memWrite16_odd (not_isEven_sub_two hodd)]

theorem enterInterrupt_undefined {s : State} (h : s.spUndefined = true) (b : Nat) :
    enterInterrupt b s = .fault (.undefinedAddress .sp) := by
  rw [enterInterrupt, push_undefined h, bind_fault]

theorem enterInterrupt_odd {s : State} (hdef : s.spUndefined = false) (hodd : ¬ IsEven s.sp) (b : Nat) :
    enterInterrupt b s = .fault (.misaligned (s.sp - 2#16)) := by
  rw [enterInterrupt, push_odd hdef hodd, bind_fault]

/-- Memory after the two pushes of an entry: the mask word, then IP below it. -/
def entryMemory (b : Nat) (s : State) : Memory :=
  (s.mem.writeWord (s.sp - 2#16) (bitMask b)).writeWord (s.sp - 2#16 - 2#16) s.ip

/-- FR after interrupt `b` was entered: a maskable interrupt is disabled. -/
def entryFlags (b : Nat) (fr : Word) : Word := if 4 ≤ b then writeBit fr b false else fr

/-- The state that entering interrupt `b` leaves on a plain platform through a usable SP (`enterInterrupt_plain`). -/
def entered (b : Nat) (s : State) : State :=
  { s with
    sp := s.sp - 2#16 - 2#16
    ip := (State.fetchMemory { s with mem := entryMemory b s }).readWord (BitVec.ofNat 16 (2 * b))
    ipUndefined := false
    fr := entryFlags b s.fr
    mem := entryMemory b s }

/-- Every entry of the interrupt table stands at an even address. -/
theorem isEven_tableEntry (b : Nat) : IsEven (BitVec.ofNat 16 (2 * b)) := by
  simp only [IsEven, BitVec.getLsbD, Nat.testBit_zero, decide_eq_false_iff_not, BitVec.toNat_ofNat]
  omega

theorem enterInterrupt_plain {s : State} (hplain : s.Plain) (hstack : s.StackUsable) (b : Nat) :
    enterInterrupt b s = .ok () (entered b s) := by
  obtain ⟨hdef, heven⟩ := hstack
  have hmask := push_plain hplain hdef (isEven_sub_two heven) (bitMask b)
  have hip := push_plain (s := { s with sp := s.sp - 2#16, mem := s.mem.writeWord (s.sp - 2#16) (bitMask b) })
    hplain hdef (isEven_sub_two (isEven_sub_two heven)) s.ip
  have hfetch := memFetch_plain (s := { s with sp := s.sp - 2#16 - 2#16, mem := entryMemory b s })
    hplain (isEven_tableEntry b)
  rw [enterInterrupt, hmask, bind_ok, hip, bind_ok]
  exact congrArg (Res.bind · _) hfetch

theorem entered_plain {s : State} (b : Nat) (h : s.Plain) : (entered b s).Plain := h

theorem entered_stackUsable {s : State} (b : Nat) : s.StackUsable → (entered b s).StackUsable :=
  fun ⟨hdef, heven⟩ => ⟨hdef, isEven_sub_two (isEven_sub_two heven)⟩

theorem entered_sp (b : Nat) (s : State) : (entered b s).sp = s.sp - 4#16 := BitVec.sub_sub s.sp 2#16 2#16

/-- The word above an entry's SP is where its first push went. -/
theorem entered_sp_add_two (b : Nat) (s : State) : (entered b s).sp + 2#16 = s.sp - 2#16 :=
  BitVec.sub_add_cancel (s.sp - 2#16) 2#16

theorem getLsbD_entryFlags (b : Nat) (fr : Word) (k : Nat) :
    (entryFlags b fr).getLsbD k = (fr.getLsbD k && !(decide (4 ≤ b) && decide (k = b))) := by
  unfold entryFlags
  split
  · next hb => rw [getLsbD_clearBit, decide_eq_true hb, Bool.true_and]
  · next hb => rw [decide_eq_false hb, Bool.false_and, Bool.not_false, Bool.and_true]

section EntryMemory

variable {s : State} (b : Nat)

/-- The return address stands at the new SP. -/
theorem entered_returnAddress (hwf : s.mem.wf = true) (heven : IsEven s.sp) :
    (entered b s).mem.readWord (entered b s).sp = s.ip :=
  readWord_writeWord_same (wf_writeWord hwf (isEven_sub_two heven) _) _ _

/-- The mask word stands above the return address, which the second push did not touch. -/
theorem entered_mask (hwf : s.mem.wf = true) (heven : IsEven s.sp) :
    (entered b s).mem.readWord ((entered b s).sp + 2#16) = bitMask b := by
  have hbelow : s.sp - 2#16 ≠ s.sp - 2#16 - 2#16 := by bv_omega
  rw [entered_sp_add_two, entered, entryMemory,
    readWord_writeWord_other _ hbelow (isEven_sub_two (isEven_sub_two heven)) (isEven_sub_two heven),
    readWord_writeWord_same hwf]

theorem readByte_entryMemory_other {x : Nat} (hmask : x ∉ wordAddresses (s.sp - 2#16))
    (hip : x ∉ wordAddresses (s.sp - 4#16)) : (entryMemory b s).readByte x = s.mem.readByte x := by
  obtain ⟨hmaskLow, hmaskHigh⟩ := not_mem_wordAddresses.mp hmask
  rw [show s.sp - 4#16 = s.sp - 2#16 - 2#16 from (entered_sp b s).symm] at hip
  obtain ⟨hipLow, hipHigh⟩ := not_mem_wordAddresses.mp hip
  rw [entryMemory, readByte_writeWord_other _ _ _ hipLow hipHigh, readByte_writeWord_other _ _ _ hmaskLow hmaskHigh]

end EntryMemory

/-- Settles O55: the first push faults through an SP that cannot be used; through one that can, the closed form. -/
theorem interruptEntry : Obligations.InterruptEntry := by
  refine ⟨fun b s hundef => enterInterrupt_undefined hundef b, fun b s hdef hodd => enterInterrupt_odd hdef hodd b, ?_⟩
  intro b s _ _ hplain hwf hstack
  have ⟨_, heven⟩ := hstack
  refine ⟨entered b s, enterInterrupt_plain hplain hstack b, ?_, entered_returnAddress b hwf heven, ?_,
    fun x => readByte_entryMemory_other b, getLsbD_entryFlags b s.fr⟩
  · rw [← entered_sp b s]
    rfl
  · rw [entered_mask b hwf heven, bitMask_eq_two_pow]

/-! ### The phase empties IR -/

theorem interruptPhase_markII_inv {s t : State} {taken : Bool} (hv : s.cfg.variant = .markII)
    (h : interruptPhase s = .ok taken t) : servicePhase (externalEvents s) = .ok taken t := by
  simp only [interruptPhase, hv] at h
  split at h
  · next hphase => rw [hphase, h]
  · cases h
  · cases h

/-- A reset clears IR, and the loop empties it. -/
theorem servicePhase_ir {s t : State} {taken : Bool} (h : servicePhase s = .ok taken t) : t.ir = 0x0000#16 := by
  cases hreset : s.ir.getLsbD 0 with
  | true =>
    rw [servicePhase, if_pos hreset] at h
    obtain ⟨_, u, hu, h⟩ := bind_eq_ok h
    obtain ⟨_, _, rfl⟩ := takeReset_ok hu
    cases h
    rfl
  | false => exact serviceInterrupts_ir ((servicePhase_noReset hreset).symm.trans h) hreset

/-- Settles O56: whatever the phase takes it leaves IR empty, and a phase that takes nothing does nothing else. -/
theorem phaseEmptiesIr : Obligations.PhaseEmptiesIr := by
  refine fun s hv => ⟨fun t taken h => ?_, interruptPhase_masked hv⟩
  have hservice := interruptPhase_markII_inv hv h
  refine ⟨servicePhase_ir hservice, fun k hk => ?_⟩
  rw [← externalEvents_fr s]
  exact (servicePhase_keeps hservice).fr k hk

/-! ### The interrupts a phase enters -/

/-- Interrupt `b` is triggered and not masked. -/
def isDue (s : State) (b : Nat) : Bool := s.ir.getLsbD b && (decide (b < 4) || s.fr.getLsbD b)

theorem isDue_iff {s : State} {b : Nat} :
    isDue s b = true ↔ s.ir.getLsbD b = true ∧ (b < 4 ∨ s.fr.getLsbD b = true) := by
  simp [isDue]

theorem isDue_congr {s t : State} {b : Nat} (hir : t.ir.getLsbD b = s.ir.getLsbD b)
    (hfr : t.fr.getLsbD b = s.fr.getLsbD b) : isDue t b = isDue s b := by
  rw [isDue, isDue, hir, hfr]

/-- The interrupts that the loop of the phase enters on its way from bit `n` down to bit 1. -/
def dueUpTo (n : Nat) (s : State) : List Nat := (List.range' 1 n).reverse.filter (isDue s)

theorem dueInterrupts_eq_dueUpTo (s : State) : dueInterrupts s = dueUpTo 15 s := rfl

theorem mem_dueUpTo {n b : Nat} {s : State} : b ∈ dueUpTo n s ↔ (1 ≤ b ∧ b ≤ n) ∧ isDue s b = true := by
  rw [dueUpTo, List.mem_filter, List.mem_reverse, List.mem_range'_1, Nat.add_comm 1 n, Nat.lt_succ_iff]

theorem dueUpTo_succ (n : Nat) (s : State) :
    dueUpTo (n + 1) s = if isDue s (n + 1) then (n + 1) :: dueUpTo n s else dueUpTo n s := by
  rw [dueUpTo, List.range'_1_concat, List.reverse_append, List.reverse_singleton, List.singleton_append,
    List.filter_cons, Nat.add_comm 1 n]
  rfl

theorem dueUpTo_congr {n : Nat} {s t : State} (h : ∀ k, k ≤ n → isDue t k = isDue s k) :
    dueUpTo n t = dueUpTo n s := by
  refine List.filter_congr fun k hk => h k ?_
  have hrange := List.mem_range'_1.mp (List.mem_reverse.mp hk)
  omega

/-- The lowest-numbered interrupt that is due is the last one entered. -/
theorem dueUpTo_lowest {b n : Nat} {s : State} (hb : 1 ≤ b) (hn : b ≤ n) (hdue : isDue s b = true)
    (hlowest : ∀ k, 1 ≤ k → k < b → isDue s k = false) : ∃ higher, dueUpTo n s = higher ++ [b] := by
  induction n, hn using Nat.le_induction with
  | base =>
    obtain ⟨c, rfl⟩ := Nat.exists_eq_add_of_le' hb
    have hnone : dueUpTo c s = [] := by
      refine List.eq_nil_iff_forall_not_mem.mpr fun k hk => ?_
      obtain ⟨⟨h1, hc⟩, hk⟩ := mem_dueUpTo.mp hk
      exact absurd hk (by simp [hlowest k h1 (by omega)])
    exact ⟨[], by rw [dueUpTo_succ, if_pos hdue, hnone, List.nil_append]⟩
  | succ n _ ih =>
    obtain ⟨higher, ih⟩ := ih
    rw [dueUpTo_succ, ih]
    split
    · exact ⟨(n + 1) :: higher, rfl⟩
    · exact ⟨higher, rfl⟩

/-! ### The loop of the phase -/

/-- A round of the loop clears its bit of IR, whatever else it does. -/
def dropTrigger (b : Nat) (s : State) : State := { s with ir := writeBit s.ir b false }

/-- One round of the loop: a due interrupt is entered. -/
theorem serviceInterrupts_due {n : Nat} {s : State} (h : isDue s (n + 1) = true) (taken : Bool) :
    serviceInterrupts (n + 1) taken s =
      (enterInterrupt (n + 1) (dropTrigger (n + 1) s)).bind fun _ t =>
        serviceInterrupts n true t := by
  obtain ⟨hir, hunmasked⟩ := isDue_iff.mp h
  rw [serviceInterrupts, if_pos hir, if_pos hunmasked, dropTrigger]

/-- One round of the loop: any other interrupt is dropped. -/
theorem serviceInterrupts_notDue {n : Nat} {s : State} (h : isDue s (n + 1) = false) (taken : Bool) :
    serviceInterrupts (n + 1) taken s =
      serviceInterrupts n taken (dropTrigger (n + 1) s) := by
  rw [serviceInterrupts, dropTrigger]
  split
  · next hir => exact if_neg fun hunmasked => by simp [isDue_iff.mpr ⟨hir, hunmasked⟩] at h
  · next hir => rw [writeBit_false_of_clear (by simpa using hir)]

/-- The bit a round clears decides nothing about the interrupts below it. -/
theorem isDue_dropTrigger {s : State} {b k : Nat} (hk : k ≠ b) : isDue (dropTrigger b s) k = isDue s k :=
  isDue_congr (by simp [dropTrigger, getLsbD_clearBit, hk]) rfl

theorem dueUpTo_dropTrigger (n : Nat) (s : State) : dueUpTo n (dropTrigger (n + 1) s) = dueUpTo n s :=
  dueUpTo_congr fun _ hk => isDue_dropTrigger (by omega)

/-- Nor does the enable bit that an entry clears. -/
theorem isDue_entered {s : State} {b k : Nat} (hk : k ≠ b) : isDue (entered b s) k = isDue s k :=
  isDue_congr rfl (by simp [entered, getLsbD_entryFlags, hk])

/-- Through an undefined SP a loop with an interrupt to enter faults, on every platform (60_exceptions.md R268). -/
theorem serviceInterrupts_undefined {n : Nat} {taken : Bool} {s : State} (hundef : s.spUndefined = true)
    (hdue : dueUpTo n s ≠ []) : serviceInterrupts n taken s = .fault (.undefinedAddress .sp) := by
  induction n generalizing s with
  | zero => exact absurd rfl hdue
  | succ n ih =>
    cases h : isDue s (n + 1) with
    | true => rw [serviceInterrupts_due h, enterInterrupt_undefined (s := dropTrigger (n + 1) s) hundef, bind_fault]
    | false =>
      rw [serviceInterrupts_notDue h]
      refine ih (s := dropTrigger (n + 1) s) hundef ?_
      rw [dueUpTo_dropTrigger]
      simpa [dueUpTo_succ, h] using hdue

/-- The state after entering interrupts one after another, each from the state the entry before it left. -/
def enteredAll (bs : List Nat) (s : State) : State := bs.foldl (fun t b => entered b t) s

@[simp] theorem enteredAll_nil (s : State) : enteredAll [] s = s := rfl

@[simp] theorem enteredAll_cons (b : Nat) (bs : List Nat) (s : State) :
    enteredAll (b :: bs) s = enteredAll bs (entered b s) := rfl

theorem enteredAll_append_singleton (bs : List Nat) (b : Nat) (s : State) :
    enteredAll (bs ++ [b]) s = entered b (enteredAll bs s) := by
  simp [enteredAll]

theorem enterAll_plain {bs : List Nat} {s : State} (hplain : s.Plain) (hstack : s.StackUsable) :
    enterAll bs s = .ok () (enteredAll bs s) := by
  induction bs generalizing s with
  | nil => rfl
  | cons b bs ih =>
    rw [enterAll, enterInterrupt_plain hplain hstack, bind_ok, ih (entered_plain b hplain) (entered_stackUsable b hstack),
      enteredAll_cons]

theorem enteredAll_sp (bs : List Nat) (s : State) : (enteredAll bs s).sp = s.sp - BitVec.ofNat 16 (4 * bs.length) := by
  induction bs generalizing s with
  | nil => simp
  | cons b bs ih =>
    rw [enteredAll_cons, ih, entered_sp, BitVec.sub_sub, ← BitVec.ofNat_add, List.length_cons, Nat.mul_succ,
      Nat.add_comm]

/-- On a plain platform the loop enters what is due, IR emptied: no entry reads IR, so it may as well be emptied
before. -/
theorem serviceInterrupts_plain {n : Nat} {taken : Bool} {s : State} (hplain : s.Plain) (hstack : s.StackUsable)
    (hir : ∀ k, s.ir.getLsbD k = true → 1 ≤ k ∧ k ≤ n) :
    serviceInterrupts n taken s =
      .ok (taken || !(dueUpTo n s).isEmpty) (enteredAll (dueUpTo n s) { s with ir := 0x0000#16 }) := by
  induction n generalizing taken s with
  | zero =>
    have hempty : s.ir = 0x0000#16 := by
      refine BitVec.eq_of_getLsbD_eq fun k _ => ?_
      rw [BitVec.getLsbD_zero, ← Bool.not_eq_true]
      intro hk
      have hrange := hir k hk
      omega
    rw [← hempty]
    exact congrArg (Res.ok · s) (Bool.or_false taken).symm
  | succ n ih =>
    have hcleared : ∀ k, (dropTrigger (n + 1) s).ir.getLsbD k = true → 1 ≤ k ∧ k ≤ n := by
      intro k hk
      rw [dropTrigger, getLsbD_clearBit, Bool.and_eq_true, Bool.not_eq_true', decide_eq_false_iff_not] at hk
      obtain ⟨hbit, hne⟩ := hk
      have hrange := hir k hbit
      omega
    cases h : isDue s (n + 1) with
    | false =>
      rw [serviceInterrupts_notDue h, ih (s := dropTrigger (n + 1) s) hplain hstack hcleared, dueUpTo_dropTrigger,
        dueUpTo_succ, h]
      rfl
    | true =>
      have hbelow : dueUpTo n (entered (n + 1) (dropTrigger (n + 1) s)) = dueUpTo n s :=
        (dueUpTo_congr fun _ hk => isDue_entered (by omega)).trans (dueUpTo_dropTrigger n s)
      rw [serviceInterrupts_due h, enterInterrupt_plain (s := dropTrigger (n + 1) s) hplain hstack, bind_ok,
        ih (entered_plain (s := dropTrigger (n + 1) s) _ hplain)
          (entered_stackUsable (s := dropTrigger (n + 1) s) _ hstack) hcleared,
        hbelow, dueUpTo_succ, if_pos h, List.isEmpty_cons, Bool.not_false, Bool.or_true, Bool.true_or]
      rfl

/-- The phase of a Mark II on a plain platform, no reset triggered, through a usable SP. -/
theorem interruptPhase_plain {s : State} (hv : s.cfg.variant = .markII)
    (hreset : (externalEvents s).ir.getLsbD 0 = false) (hplain : s.Plain) (hstack : s.StackUsable) :
    interruptPhase s = .ok (!(dueInterrupts (externalEvents s)).isEmpty)
      (enteredAll (dueInterrupts (externalEvents s)) { externalEvents s with ir := 0x0000#16 }) := by
  have hplain' : (externalEvents s).Plain := by rwa [State.Plain, externalEvents_cfg]
  have hstack' : (externalEvents s).StackUsable := by
    rwa [State.StackUsable, externalEvents_spUndefined, externalEvents_sp]
  apply interruptPhase_markII hv
  rw [servicePhase_noReset hreset, dueInterrupts_eq_dueUpTo]
  refine serviceInterrupts_plain hplain' hstack' fun k hk => ⟨Nat.pos_of_ne_zero ?_, ?_⟩
  · rintro rfl
    exact Bool.false_ne_true (hreset.symm.trans hk)
  · have hwidth := BitVec.lt_of_getLsbD hk
    omega

theorem interruptPhase_undefined {s : State} (hv : s.cfg.variant = .markII)
    (hreset : (externalEvents s).ir.getLsbD 0 = false) (hundef : s.spUndefined = true)
    (hdue : dueInterrupts (externalEvents s) ≠ []) : interruptPhase s = .fault (.undefinedAddress .sp) := by
  have hundef' : (externalEvents s).spUndefined = true := by rwa [externalEvents_spUndefined]
  have hservice : servicePhase (externalEvents s) = .fault (.undefinedAddress .sp) :=
    (servicePhase_noReset hreset).trans (serviceInterrupts_undefined (n := 15) hundef' hdue)
  simp only [interruptPhase, hv, hservice]

/-- Settles O57: the phase is the entries of what is due, of which the lowest-numbered is the last. -/
theorem lowestInterruptFirst : Obligations.LowestInterruptFirst := by
  rintro s _ hv hreset rfl
  refine ⟨fun hplain hstack => ?_, interruptPhase_undefined hv hreset⟩
  have hphase := interruptPhase_plain hv hreset hplain hstack
  have hplain' : State.Plain { externalEvents s with ir := 0x0000#16 } := by
    rwa [State.Plain, externalEvents_cfg]
  have hstack' : State.StackUsable { externalEvents s with ir := 0x0000#16 } := by
    rwa [State.StackUsable, externalEvents_spUndefined, externalEvents_sp]
  refine ⟨⟨_, enterAll_plain hplain' hstack', hphase, ?_⟩, fun b hone => ?_, fun b h1 h7 hir hunmasked hmasked => ?_⟩
  · rw [enteredAll_sp, externalEvents_sp]
  · rw [hphase, hone, enterInterrupt_plain hplain' hstack']
    rfl
  · have hdue : isDue (externalEvents s) b = true := isDue_iff.mpr ⟨hir, by rwa [externalEvents_fr]⟩
    have hlowest : ∀ k, 1 ≤ k → k < b → isDue (externalEvents s) k = false := by
      intro k hk1 hkb
      rw [← Bool.not_eq_true, isDue_iff, externalEvents_fr]
      rintro ⟨hkir, hk⟩
      obtain ⟨h4, hfr⟩ := hmasked k hk1 hkb hkir
      simp [hfr] at hk
      omega
    obtain ⟨higher, hlast⟩ := dueUpTo_lowest (n := 15) h1 (by omega) hdue hlowest
    rw [hphase, dueInterrupts_eq_dueUpTo, hlast, enteredAll_append_singleton]
    exact ⟨_, congrArg (Res.ok · _) (by simp), rfl⟩

/-! ### The return from an interrupt -/

/-- The mask word that the return takes from the stack sets the bit that the entry cleared. -/
theorem entryFlags_or_bitMask (b : Nat) (fr : Word) : entryFlags b fr ||| bitMask b = fr ||| bitMask b := by
  refine BitVec.eq_of_getLsbD_eq fun k hk => ?_
  rw [BitVec.getLsbD_or, BitVec.getLsbD_or, getLsbD_entryFlags, getLsbD_bitMask]
  by_cases hb : k = b
  · subst hb
    simp [hk]
  · simp [hb]

theorem or_bitMask_of_set {w : Word} {b : Nat} (h : w.getLsbD b = true) : w ||| bitMask b = w := by
  refine BitVec.eq_of_getLsbD_eq fun k _ => ?_
  rw [BitVec.getLsbD_or, getLsbD_bitMask]
  by_cases hk : k = b <;> simp [hk, h]

/-- No bit of the interrupts 0 to 7 is reserved in the FR of a Mark II. -/
theorem or_bitMask_reservedFlags {fr : Word} {b : Nat} (hb : b ≤ 7) (h : fr &&& reservedFlags .markII = 0x0000#16) :
    (fr ||| bitMask b) &&& reservedFlags .markII = 0x0000#16 := by
  have hmask : bitMask b &&& reservedFlags .markII = 0x0000#16 := by
    interval_cases b <;> rfl
  refine and_eq_zero_of_bits h fun k hk hw => ?_
  have hclear : (bitMask b).getLsbD k = false := getLsbD_of_and_eq_zero hmask hk
  simpa [hclear] using hw

/-- `setip [i0:pop] [i1:pop]` (60_exceptions.md R261). -/
def returnFields : Fields := ⟨.always, .pop, .pop, false, false⟩

/-- The return on a plain platform, of a CPU that may just have been woken: IP from the top of the stack, the bits of the
word above it set in FR. -/
theorem exec_return {t : State} (hplain : t.Plain) (hstack : t.StackUsable)
    (hlegal : (t.fr ||| t.mem.readWord (t.sp + 2#16)) &&& reservedFlags t.cfg.variant = 0x0000#16) :
    exec (.setip returnFields) t = .next { t with
      ip := t.mem.readWord t.sp, ipUndefined := false, sp := t.sp + 2#16 + 2#16
      fr := t.fr ||| t.mem.readWord (t.sp + 2#16), halted := false } := by
  have hexec : Executes returnFields { t with halted := false } :=
    ⟨hplain, rfl, rfl, fun h => by cases h <;> contradiction, fun _ => hstack⟩
  rw [exec_awake _ hplain]
  exact runCommand_jumps (fun input0 _ => input0) hexec nofun hlegal

/-- Settles O58: the return pops the two words that the entry pushed. -/
theorem returnUndoesEntry : Obligations.ReturnUndoesEntry := by
  intro b s t _ h7 hplain ⟨hwf, _, hfr, _⟩ hv hstack hmaskable hentry
  obtain rfl : entered b s = t := by
    have h := (enterInterrupt_plain hplain hstack b).symm.trans hentry
    injection h
  have ⟨_, heven⟩ := hstack
  have hip := entered_returnAddress b hwf heven
  have hmask := entered_mask b hwf heven
  have hsp : (entered b s).sp + 2#16 + 2#16 = s.sp := by rw [entered_sp_add_two, BitVec.sub_add_cancel]
  have hflags : (entered b s).fr ||| bitMask b = s.fr ||| bitMask b := entryFlags_or_bitMask b s.fr
  have hlegal : ((entered b s).fr ||| bitMask b) &&& reservedFlags (entered b s).cfg.variant = 0x0000#16 := by
    rw [hv] at hfr
    rw [hflags, show (entered b s).cfg.variant = .markII from hv]
    exact or_bitMask_reservedFlags h7 hfr
  have hreturn := exec_return (entered_plain b hplain) (entered_stackUsable b hstack) (hmask ▸ hlegal)
  rw [hip, hmask, hsp, hflags] at hreturn
  refine ⟨_, hreturn, by rw [bitMask_eq_two_pow]; rfl, fun h4 => or_bitMask_of_set (hmaskable h4)⟩

/-! ### An access answered with BUS -/

section Signalled

variable {s : State} {a : Word}

theorem memRead8_signalled (h : s.busSignalled .read 1 a = true) : memRead8 a s = .busError s := if_pos h

theorem memRead16_signalled (ha : IsEven a) (h : s.busSignalled .read 2 a = true) : memRead16 a s = .busError s := by
  simp only [memRead16, show a.getLsbD 0 = false from ha, h, Bool.false_eq_true, if_false, if_true]

theorem memFetch_signalled (ha : IsEven a) (h : s.busSignalled .fetch 2 a = true) : memFetch a s = .busError s := by
  simp only [memFetch, show a.getLsbD 0 = false from ha, h, Bool.false_eq_true, if_false, if_true]

theorem memWrite8_signalled (v : Word) (h : s.busSignalled .write 1 a = true) : memWrite8 a v s = .busError s :=
  if_pos h

theorem memWrite16_signalled (v : Word) (ha : IsEven a) (h : s.busSignalled .write 2 a = true) :
    memWrite16 a v s = .busError s := by
  simp only [memWrite16, show a.getLsbD 0 = false from ha, h, Bool.false_eq_true, if_false, if_true]

theorem push_signalled (v : Word) (hstack : s.StackUsable) (h : s.busSignalled .write 2 (s.sp - 2#16) = true) :
    push v s = .busError { s with sp := s.sp - 2#16 } := by
  obtain ⟨hdef, heven⟩ := hstack
  rw [push, addressIn_sp hdef, bind_ok]
  exact memWrite16_signalled (s := { s with sp := s.sp - 2#16 }) v (isEven_sub_two heven) h

/-- A push answered with BUS does not complete, through whatever SP. -/
theorem push_signalled_ne_ok {v : Word} {t : State} (h : s.busSignalled .write 2 (s.sp - 2#16) = true) :
    push v s ≠ .ok () t := by
  intro hok
  obtain ⟨heven, _⟩ := push_ok hok
  have hwrite := through_ok (r := .sp) (k := fun sp u => memWrite16 (sp - 2#16) v { u with sp := sp - 2#16 }) hok
  have herror := memWrite16_signalled (s := { s with sp := s.sp - 2#16 }) v heven h
  cases herror.symm.trans hwrite

theorem busSignalled_markII {k : AccessKind} {width : Nat} (h : s.busSignalled k width a = true) :
    s.cfg.variant = .markII := by
  simp only [State.busSignalled, Bool.and_eq_true, decide_eq_true_eq] at h
  exact h.1

end Signalled

/-! ### An instruction taken back -/

theorem rollback_markII {s : State} (hv : s.cfg.variant = .markII) (u : State) :
    rollback s u = { s with ir := s.ir ||| 0x0004#16, draws := u.draws } := by
  simp [rollback, raiseInterrupt, hv, bitMask]

section TakenBack

variable {f : Fields} {body : Word → Word → State → Res Word} {s u w : State} {v : Word × Word}

/-- The input stage changes no parameter. -/
theorem inputStage_cfg (h : inputStage f (passOpcode s) = .ok v u) : u.cfg = s.cfg := by
  obtain ⟨_, _, rfl⟩ := inputStage_ok h
  rfl

/-- A bus error in any stage of an executed instruction takes it back. -/
theorem runCommand_takenBack (hv : s.cfg.variant = .markII) (hcond : conditionHolds f.cond s.fr = true)
    (h : executeStages f body (passOpcode s) = .busError w) :
    runCommand f body s = .next { s with ir := s.ir ||| 0x0004#16, draws := w.draws } := by
  rw [runCommand, if_pos hcond, h, ← rollback_markII hv]

/-- So does one that the command body meets. -/
theorem runCommand_body_takenBack (hv : s.cfg.variant = .markII) (hcond : conditionHolds f.cond s.fr = true)
    (hinputs : inputStage f (passOpcode s) = .ok v u) (hbody : body v.1 v.2 u = .busError u) :
    runCommand f body s = .next { s with ir := s.ir ||| 0x0004#16, draws := u.draws } :=
  runCommand_takenBack hv hcond (by rw [executeStages, hinputs, bind_ok, hbody, bind_busError])

/-- And one on the push, behind a command body that leaves the state as it is. -/
theorem runCommand_push_takenBack {output : Word} (hcond : conditionHolds f.cond s.fr = true)
    (hinputs : inputStage f (passOpcode s) = .ok v u) (hbody : body v.1 v.2 u = .ok output u) (hout : f.out = true)
    (hstack : u.StackUsable) (hbus : u.busSignalled .write 2 (u.sp - 2#16) = true) :
    runCommand f body s = .next { s with ir := s.ir ||| 0x0004#16, draws := u.draws } := by
  have hv : s.cfg.variant = .markII := inputStage_cfg hinputs ▸ busSignalled_markII hbus
  refine runCommand_takenBack (w := { u with sp := u.sp - 2#16 }) hv hcond ?_
  rw [executeStages, hinputs, bind_ok, hbody, bind_ok, outputStage, if_pos hout, push_signalled output hstack hbus,
    bind_busError]

end TakenBack

theorem exec_cfg {i : Instr} {s t : State} (h : exec i s = .next t) : t.cfg = s.cfg := by
  obtain ⟨f, _, ⟨_, rfl⟩ | ⟨_, _, rfl⟩ | hdone⟩ := exec_next h
  · exact ignore_cfg f s
  · rfl
  · exact hdone.cfg_eq

/-- A defined command whose push is answered with BUS is taken back if it answers a state at all: it cannot have
completed, since its output stage pushes through `pushSp`. -/
theorem exec_push_takenBack {i : Instr} {f : Fields} {s t u : State} {v : Word × Word} (hi : i.isDefined = true)
    (hf : i.fields? = some f) (hcond : conditionHolds f.cond s.fr = true)
    (hinputs : inputStage f (passOpcode s) = .ok v u) (hout : f.out = true)
    (hbus : u.busSignalled .write 2 (pushSp i v.1 u - 2#16) = true) (h : exec i s = .next t) : TakenBack s t := by
  have hcfg := exec_cfg h
  obtain ⟨g, body, hg, hexec, hbody⟩ := exec_defined_stores i hi
  cases hf.symm.trans hg
  rw [hexec s] at h
  obtain ⟨hfalse, _⟩ | ⟨_, w, _, rfl⟩ | ⟨_, inputs, s1, o, s2, s3, hin, hrun, hpush, rfl⟩ := runCommand_next h
  · exact absurd hcond (by simp [hfalse])
  · exact rollback_takenBack (inputStage_cfg hinputs ▸ busSignalled_markII hbus) w
  · cases hinputs.symm.trans hin
    have hsp := (hbody.stored hrun).sp
    rw [outputStage, if_pos hout] at hpush
    have hs2 : s2.cfg = u.cfg := by
      obtain ⟨_, m, rfl, _⟩ := push_ok hpush
      rw [flagStage_cfg] at hcfg
      exact hcfg.trans (inputStage_cfg hinputs).symm
    rw [← hsp, State.busSignalled, ← hs2] at hbus
    exact absurd hpush (push_signalled_ne_ok hbus)

/-- Settles O59: the command's own access is answered with BUS in the state that the input stage left, or the push is in
the state that the command left. -/
theorem busErrorTakesBack : Obligations.BusErrorTakesBack := by
  rintro f s u v _ hcond hinputs rfl
  have hv : ∀ {k width a}, u.busSignalled k width a = true → s.cfg.variant = .markII :=
    fun hbus => inputStage_cfg hinputs ▸ busSignalled_markII hbus
  refine ⟨fun ha hbus => ?_, fun hbus => ?_, fun ha hbus => ?_, fun hbus => ?_, fun ⟨hdef, heven⟩ => ?_,
    fun hout => ⟨fun hstack hbus => ?_, fun i t hi hf hbus h => ?_⟩⟩
  · exact runCommand_body_takenBack (hv hbus) hcond hinputs (memRead16_signalled ha hbus)
  · exact runCommand_body_takenBack (hv hbus) hcond hinputs (congrArg (Res.bind · _) (memRead8_signalled hbus))
  · exact runCommand_body_takenBack (hv hbus) hcond hinputs (congrArg (Res.bind · _) (memWrite16_signalled _ ha hbus))
  · exact runCommand_body_takenBack (hv hbus) hcond hinputs (congrArg (Res.bind · _) (memWrite8_signalled _ hbus))
  · have haddr : IsEven (indexedAddress u.bp v.1) := isEven_indexedAddress.mpr heven
    refine ⟨fun hbus => runCommand_body_takenBack (hv hbus) hcond hinputs ?_,
      fun hbus => runCommand_body_takenBack (hv hbus) hcond hinputs ?_⟩
    · rw [addressIn_bp hdef, bind_ok, memRead16_signalled haddr hbus]
    · rw [addressIn_bp hdef, bind_ok, memWrite16_signalled _ haddr hbus, bind_busError]
  · exact runCommand_push_takenBack hcond hinputs rfl hout hstack hbus
  · exact (exec_push_takenBack hi hf hcond hinputs hout hbus h).eq.2

/-- An opcode fetch answered with BUS takes the step back to the end of phase A. -/
theorem fetchAndExecute_signalled {s : State} (hip : s.FetchUsable) (hbus : s.busSignalled .fetch 2 s.ip = true) :
    fetchAndExecute s = .next { s with ir := s.ir ||| 0x0004#16 } := by
  obtain ⟨hdef, heven⟩ := hip
  have hfetch : fetchOpcode s = .busError s := by
    rw [fetchOpcode, addressIn_ip hdef, bind_ok, memFetch_signalled heven hbus]
  simp only [fetchAndExecute, hfetch, rollback_markII (busSignalled_markII hbus)]

/-- Settles O60: the input stage's bus error ends the stages of a defined command, and the fetch's the step. -/
theorem busErrorInFrame : Obligations.BusErrorInFrame := by
  refine ⟨fun i f s u hi hf hcond hinputs => ?_, fun s t taken hphase hgo hip hbus => ?_⟩
  · obtain ⟨g, body, hg, hexec, _⟩ := exec_defined i hi
    cases hf.symm.trans hg
    have hv : s.cfg.variant = .markII := inputStage_busError (s := passOpcode s) hinputs
    exact (hexec s).trans (runCommand_takenBack hv hcond (by rw [executeStages, hinputs, bind_busError]))
  · rw [step_goesOn hphase hgo, fetchAndExecute_signalled hip hbus]

end Sys2Proof.Machine
end

section
/-! PROOFS. The statement of 70_reset_and_hazards.md. Without RST the phase of a Mark II-L is `interruptPhase_markIIL`. -/

namespace Sys2Proof.Machine

/-- The phase of a Mark II-L with RST is its reset: a new IP and FR, awake, and no usable SP or BP. -/
theorem interruptPhase_markIIL_rst {s : State} (hv : s.cfg.variant = .markIIL) (h : (eventsNow s).rst = true) :
    interruptPhase s = .ok false
      (forgetStackRegisters { loadIP 0x0000#16 (dropEvents s) with fr := 0x0000#16, halted := false }) := by
  simp only [interruptPhase, hv, resetPhaseMarkIIL, h, if_true]

/-- Settles O54: the level of the RST pin decides between the reset and the passing of the events. -/
theorem markIILReset : Obligations.MarkIILReset := fun _ hv =>
  ⟨interruptPhase_markIIL_rst hv, interruptPhase_markIIL hv⟩

end Sys2Proof.Machine
end
